-- ==== Sys2Proof/Word.lean ====
section
/-!
DEFINITION. The value types of the engine (spec/00_scope.md).

"Every data value is a natural number of unbounded size unless its width is stated" (R14): a register of
`w` bits, where `w` is an operand of the request (R9), is a `Nat` that every write masks; what has a fixed
width (a command word, a message byte) is a bit vector.
-/

namespace Sys2Proof

/-- A message byte, 0..255 (R12). -/
abbrev Byte := BitVec 8

/-- A command word (R81). -/
abbrev CmdWord := BitVec 8

/-- A lookup table: "always exactly 256 entries, indexed by a byte value 0..255" (R11), each of `w` bits. -/
abbrev Table := Vector Nat 256

end Sys2Proof
end

