-- ==== Sys2Proof/Syntax.lean ====
section
/-!
DEFINITION. Requests and instructions (spec/30_encoding.md). A request is a command word with the operand
ports (R80, R82); an instruction is a decoded request: the operation with the operands it reads (R83, R94).
-/

namespace Sys2Proof

/-- A message element on SEQ or MSG (R85): an integer of any sign and size, or something that is not an
integer at all. -/
inductive Elem where
  | int (n : Int)
  | nonInteger
deriving DecidableEq, Repr

/-- The WIDTH port (R84): `none` is the distinct value *missing*, which is not zero. -/
abbrev WidthPort := Option Int

/-- The algorithm selector (R27). -/
inductive Algo where
  | bitSerial
  | table
  | optimizedTable
  | reflectedTable
deriving DecidableEq, Repr

/-- The operands a CRC command reads (R83): POLY, WIDTH, INIT, REFIN, REFOUT, XOROUT and MSG, in the
order of the request syntax (R94). -/
structure CrcOperands where
  poly : Nat
  width : WidthPort
  init : Nat
  refin : Bool
  refout : Bool
  xorout : Nat
  msg : List Elem
deriving DecidableEq, Repr

/-- One constructor per row of the opcode map (R87), with the operands its command reads (R83). The
operand types are the ports' (R82), so no operand outside a port's range can be written. -/
inductive Instr where
  | rfb (b : Byte)
  | rfw (x n : Nat)
  | rfs (seq : List Elem)
  | bldD (poly : Nat) (width : WidthPort)
  | bldR (poly : Nat) (width : WidthPort)
  | crcBS (o : CrcOperands)
  | crcTB (o : CrcOperands)
  | crcOT (o : CrcOperands)
  | crcRT (o : CrcOperands)
deriving DecidableEq, Repr

/-- The operand ports (R82), ports 0 to 10. Every port carries some value with every request; a command
ignores the ports it does not read (R83). -/
structure Ports where
  b : Byte
  x : Nat
  n : Nat
  seq : List Elem
  poly : Nat
  width : WidthPort
  init : Nat
  refin : Bool
  refout : Bool
  xorout : Nat
  msg : List Elem
deriving DecidableEq, Repr

/-- Every port at zero (lists empty, WIDTH the integer 0): what an encoder puts on a port its command
does not read. -/
def Ports.zero : Ports :=
  { b := 0, x := 0, n := 0, seq := [], poly := 0, width := some 0, init := 0, refin := false,
    refout := false, xorout := 0, msg := [] }

/-- One request: a command word together with its operands (R80). -/
structure Request where
  cmd : CmdWord
  ports : Ports
deriving DecidableEq, Repr

end Sys2Proof
end

