-- ==== Sys2Proof/WellFormed.lean ====
section
/-!
DEFINITION. Which requests are well formed, from the command-word FORMAT of spec/30_encoding.md R81 (the
fields CLASS and SUB), where the decoder is written from the flat table of R93. "A well-formed script
contains none" of the reserved words (spec/95_test_vectors.md L3-3).

An operand never makes a request ill formed: a missing, negative or illegal WIDTH and an element that is no
byte must be presentable, so that the engine can reject them with a response (R84, R85). Nor can an `Instr`
be ill formed, since its operands have the ports' own types (R82).
-/

namespace Sys2Proof

/-- CLASS = CMD[7:4] (R81). -/
def CmdWord.cls (c : CmdWord) : Nat := c.toNat / 16

/-- SUB = CMD[3:0] (R81). -/
def CmdWord.sub (c : CmdWord) : Nat := c.toNat % 16

/-- The SUB field is one its CLASS admits (R81): 0000 for RFB, RFW and RFS; SUB[3:1] = 000 for BLD;
SUB[3:2] = 00 for CRC; every other CLASS is reserved. -/
def CmdWord.wf (c : CmdWord) : Bool :=
  match c.cls with
  | 0x1 | 0x2 | 0x3 => c.sub == 0
  | 0x4 => c.sub / 2 == 0
  | 0x8 => c.sub / 4 == 0
  | _ => false

/-- A request is well formed when its command word is not reserved (R90). -/
def Request.wf (r : Request) : Bool := CmdWord.wf r.cmd

/-- A request script (R96) is well formed when every request in it is. -/
def Script.wf (script : List Request) : Bool := script.all Request.wf

end Sys2Proof
end

