-- ==== Sys2Proof/Decode.lean ====
section
/-!
DEFINITION. Decoding a request into an instruction, total and rejecting by name (spec/30_encoding.md R93),
and after it the encoder, written from the opcode map (R87).
-/

namespace Sys2Proof

/-- Why a request does not decode: its command word is one of the 247 reserved ones (R90). -/
inductive DecodeError where
  | reserved (cmd : CmdWord)
deriving DecidableEq, Repr

/-- What a command word spells (R93), with the fields R88 reads from it. -/
inductive Opcode where
  | rfb
  | rfw
  | rfs
  | bld (reflected : Bool)
  | crc (algo : Algo)
deriving DecidableEq, Repr

/-- `decode(cmd)` of R93, a total function of the 8-bit word. -/
def decodeWord (cmd : CmdWord) : Except DecodeError Opcode :=
  match cmd.toNat with
  | 0x10 => .ok .rfb
  | 0x20 => .ok .rfw
  | 0x30 => .ok .rfs
  | 0x40 => .ok (.bld false)
  | 0x41 => .ok (.bld true)
  | 0x80 => .ok (.crc .bitSerial)
  | 0x81 => .ok (.crc .table)
  | 0x82 => .ok (.crc .optimizedTable)
  | 0x83 => .ok (.crc .reflectedTable)
  | _ => .error (.reserved cmd)

/-- The ports a CRC command reads (R83). -/
def Ports.crcOperands (p : Ports) : CrcOperands :=
  { poly := p.poly, width := p.width, init := p.init, refin := p.refin, refout := p.refout,
    xorout := p.xorout, msg := p.msg }

/-- The operation with the operands its command reads; every other port is ignored (R83). -/
def Opcode.assemble (op : Opcode) (p : Ports) : Instr :=
  match op with
  | .rfb => .rfb p.b
  | .rfw => .rfw p.x p.n
  | .rfs => .rfs p.seq
  | .bld false => .bldD p.poly p.width
  | .bld true => .bldR p.poly p.width
  | .crc .bitSerial => .crcBS p.crcOperands
  | .crc .table => .crcTB p.crcOperands
  | .crc .optimizedTable => .crcOT p.crcOperands
  | .crc .reflectedTable => .crcRT p.crcOperands

/-- Decoding a request: the command word (R93), then the operands it reads (R83). -/
def decode (r : Request) : Except DecodeError Instr :=
  match decodeWord r.cmd with
  | .ok op => .ok (op.assemble r.ports)
  | .error e => .error e

/-- The command word of an instruction (R87). -/
def encodeWord (i : Instr) : CmdWord :=
  match i with
  | .rfb _ => 0x10
  | .rfw _ _ => 0x20
  | .rfs _ => 0x30
  | .bldD _ _ => 0x40
  | .bldR _ _ => 0x41
  | .crcBS _ => 0x80
  | .crcTB _ => 0x81
  | .crcOT _ => 0x82
  | .crcRT _ => 0x83

/-- Ports that carry the operands of a CRC command, the others at zero. -/
def CrcOperands.ports (o : CrcOperands) : Ports :=
  { Ports.zero with
    poly := o.poly, width := o.width, init := o.init, refin := o.refin, refout := o.refout,
    xorout := o.xorout, msg := o.msg }

/-- The operand ports of an instruction (R82), the ports its command does not read at zero. -/
def encodePorts (i : Instr) : Ports :=
  match i with
  | .rfb b => { Ports.zero with b := b }
  | .rfw x n => { Ports.zero with x := x, n := n }
  | .rfs seq => { Ports.zero with seq := seq }
  | .bldD poly width => { Ports.zero with poly := poly, width := width }
  | .bldR poly width => { Ports.zero with poly := poly, width := width }
  | .crcBS o => o.ports
  | .crcTB o => o.ports
  | .crcOT o => o.ports
  | .crcRT o => o.ports

/-- The request that spells an instruction. -/
def encode (i : Instr) : Request := { cmd := encodeWord i, ports := encodePorts i }

/-- The ports the command of `i` reads (R83) carry the same values in `p` and `q`. -/
def SameReadPorts (i : Instr) (p q : Ports) : Prop :=
  match i with
  | .rfb _ => p.b = q.b
  | .rfw _ _ => p.x = q.x ∧ p.n = q.n
  | .rfs _ => p.seq = q.seq
  | .bldD _ _ => p.poly = q.poly ∧ p.width = q.width
  | .bldR _ _ => p.poly = q.poly ∧ p.width = q.width
  | .crcBS _ => p.crcOperands = q.crcOperands
  | .crcTB _ => p.crcOperands = q.crcOperands
  | .crcOT _ => p.crcOperands = q.crcOperands
  | .crcRT _ => p.crcOperands = q.crcOperands

/-- The request of `nbits` bits whose word is `w`, every operand port at zero; every command word has 8
bits and stands alone (R92), so no other length is a request. -/
def tableRequest (nbits w : Nat) : Option Request :=
  if nbits = 8 ∧ w < 2 ^ 8 then some { cmd := BitVec.ofNat 8 w, ports := Ports.zero } else none

/-- The instruction the decoder reads from a table row's word, its operands zero (log entry 14). -/
def decodeTableWord (nbits w : Nat) : Option Instr :=
  match tableRequest nbits w with
  | none => none
  | some r =>
    match decode r with
    | .ok i => some i
    | .error _ => none

end Sys2Proof
end

