-- ==== Sys2Proof/Config.lean ====
section
/-!
DEFINITION. What a realisation fixes: the spec's OPEN parameters (spec/00_scope.md R10, R13;
spec/93_implementation_defined.md I6, I7, I11). `State` carries a `Config` that no step writes, so a
statement about every state is a statement about every value of the parameters (log entry 8).
-/

namespace Sys2Proof

/-- TABLE_CACHE (R13, R58): whether finished tables are kept across requests. The spec's names are
`none` and `keyed`. -/
inductive CacheMode where
  | uncached
  | keyed
deriving DecidableEq, Repr

/-- How a table is computed (R140, I11): "any order of computation that leaves TBL equal to T_D or T_R
conforms". `bruteForce` is the per-entry walk of R133, `chainClosure` the method of R141. -/
inductive BuildMethod where
  | bruteForce
  | chainClosure
deriving DecidableEq, Repr

/-- The parameters of a realisation. `wMax = none` is the spec's default `W_MAX = ∞` (R10). -/
structure Config where
  wMax : Option Nat
  tableCache : CacheMode
  buildMethod : BuildMethod
deriving DecidableEq, Repr

/-- The spec's defaults: `W_MAX = ∞` (R10) and `TABLE_CACHE = none` (D18). The brute-force builder is a
DESIGN CHOICE (log entry 7); no response depends on it (R140). -/
def Config.default : Config :=
  { wMax := none, tableCache := .uncached, buildMethod := .bruteForce }

end Sys2Proof
end

