-- ==== Sys2Proof/Machine/State.lean ====
section
/-!
DEFINITION. The state of one engine instance (spec/10_state.md), the ways a step can stop, and the state
after reset (spec/70_reset_and_hazards.md R240).

A register the spec calls "unwritten" or "dead" holds no value (R22, R40, R41), which is the spec's own
state of that register and is written `none`; a read of it is the model fault R40 asks for (log entry 1).
-/

namespace Sys2Proof.Machine

/-- The sequencer PHASE (R30), which takes the place of a program counter. The codes 5 to 7 are never held
(R22), so they are no values of the type (log entry 11). -/
inductive Phase where
  | idle
  | init
  | consume
  | final
  | done
deriving DecidableEq, Repr

/-- The three error kinds (R210). -/
inductive ErrorKind where
  | invalidWidth
  | invalidMessageElement
  | invalidTableRequest
deriving DecidableEq, Repr

/-- RSP.STATUS (R35). -/
inductive Status where
  | ok
  | error (e : ErrorKind)
deriving DecidableEq, Repr

/-- RSP.VALUE (R36): a byte for RFB, a natural for RFW and the CRC commands, a list of bytes for RFS, a
table for BLD.D and BLD.R. -/
inductive RspValue where
  | byte (b : Byte)
  | nat (n : Nat)
  | bytes (l : List Byte)
  | table (t : Table)
deriving DecidableEq, Repr

/-- A response (R86): the status, and a value exactly when the status is OK. -/
structure Response where
  status : Status
  value : Option RspValue
deriving DecidableEq, Repr

/-- The status of one slot of the table builder (R37). -/
inductive SlotStatus where
  | unresolved
  | inProgress
  | resolved (v : Nat)
deriving DecidableEq, Repr

/-- The chain the builder is running (R37): its seed C, the chain register CR, the window of the last
snapshots SNAP[K], SNAP[K-1], ... (newest first, at most 9), the step counter K and the chain end END. -/
structure Chain where
  seed : Byte
  cr : Nat
  snap : List Nat
  k : Nat
  chainEnd : Nat
deriving DecidableEq, Repr

/-- The builder's working state (R37): the slots, and the chain while one is running. -/
structure Builder where
  slot : Vector SlotStatus 256
  chain : Option Chain
deriving DecidableEq, Repr

/-- The key of a cached table (R38, R58): the complete triple, with `p` already masked. -/
structure CacheKey where
  p : Nat
  w : Nat
  reflected : Bool
deriving DecidableEq, Repr

/-- The registers by name (R22). -/
inductive Reg where
  | phase | cmd | cfgW | cfgP | cfgI | cfgX | cfgRefin | cfgRefout | cfgAlgo | msg | idx | bitpos | reg
  | tbl | rspStatus | rspValue
deriving DecidableEq, Repr

/-- The model faults the spec asks for. No request can reach one (R40). Both are safe: the machine stops. -/
inductive Fault where
  /-- A register that holds no value is read (R40, R41; I2, I3). Raised by every operation that reads a
  register. Safe. -/
  | unwritten (r : Reg)
  /-- `MsgRead(j)`, or a read of the stream made from it, outside the stream (R52; I4). Raised by the CONSUME
  steps. Safe. -/
  | msgReadOutOfRange (j : Nat)
deriving DecidableEq, Repr

/-- The requests for which the machine has no step. -/
inductive Refusal where
  /-- The instruction has no meaning in the model. Raised by `exec` alone. Safe. -/
  | notModelled (mnemonic : String)
  /-- A reserved command word: "the machine has no step for it and produces no response" (R90; I1). Raised by
  the accept step. Safe. -/
  | reservedCommand (cmd : CmdWord)
  /-- A request presented while PHASE is not IDLE, a move the host does not have (R160, R245; I14). Raised by
  every meaning when it is called outside IDLE, which no step does. Safe. -/
  | requestWhileBusy
deriving DecidableEq, Repr

/-- The state of an engine instance, with the host's side of its command port. The first sixteen fields are
the registers 0x0 to 0xF of R22 in order. -/
structure State where
  /-- PHASE (R30). -/
  phase : Phase
  /-- CMD (R23). -/
  cmd : Option CmdWord
  /-- CFG.W (R24). -/
  cfgW : Option Nat
  /-- CFG.P (R25). -/
  cfgP : Option Nat
  /-- CFG.I (R25). -/
  cfgI : Option Nat
  /-- CFG.X (R25). -/
  cfgX : Option Nat
  /-- CFG.REFIN (R26). -/
  cfgRefin : Option Bool
  /-- CFG.REFOUT (R26). -/
  cfgRefout : Option Bool
  /-- CFG.ALGO (R27). -/
  cfgAlgo : Option Algo
  /-- MSG (R28). -/
  msg : Option (List Byte)
  /-- IDX (R31). -/
  idx : Option Nat
  /-- BITPOS (R31). -/
  bitpos : Option (Fin 8)
  /-- REG (R29). -/
  reg : Option Nat
  /-- TBL (R34). -/
  tbl : Option Table
  /-- RSP.STATUS (R35). -/
  rspStatus : Option Status
  /-- RSP.VALUE (R36). -/
  rspValue : Option RspValue
  /-- The builder's working state, which "exists only while a table is being constructed" (R37). A
  construction begins and ends inside one step (R249), so between steps it does not exist (log entry 9). -/
  builder : Option Builder
  /-- The table cache (R38, R58), oldest entry first. -/
  cache : List (CacheKey × Table)
  /-- The realisation's parameters (R10, R13); no step writes them. -/
  config : Config
  /-- MODEL's own: the requests the host has still to issue, in order (R96; log entry 4). -/
  script : List Request
  /-- MODEL's own: the responses the host has taken, oldest first (R161; log entry 4). -/
  responses : List Response
  /-- MODEL's own: the coming samples of the reset input, one a step; past its end reset is not asserted
  (R242; log entry 5). -/
  resetPin : List Bool
deriving DecidableEq, Repr

/-- After reset PHASE = IDLE, every other register holds no value, the builder's state does not exist and
the cache is empty (R240, R243). The parameters are the spec's defaults; the host has nothing to issue. -/
def State.reset : State :=
  { phase := .idle
    cmd := none, cfgW := none, cfgP := none, cfgI := none, cfgX := none, cfgRefin := none
    cfgRefout := none, cfgAlgo := none, msg := none, idx := none, bitpos := none, reg := none
    tbl := none, rspStatus := none, rspValue := none
    builder := none, cache := []
    config := Config.default
    script := [], responses := [], resetPin := [] }

end Sys2Proof.Machine
end

