-- ==== Sys2Proof/Machine/Flags.lean ====
section
/-!
DEFINITION. Codes. The engine has no flag and no condition code: "no operation sets or reads a carry, zero,
overflow or other flag; the only status is RSP.STATUS" (spec/10_state.md R32). This file gives the numeric
codes of RSP.STATUS, PHASE and CFG.ALGO and the register numbers.
-/

namespace Sys2Proof.Machine

/-- The code of an error kind (R210). -/
def ErrorKind.code : ErrorKind → BitVec 2
  | .invalidWidth => 1
  | .invalidMessageElement => 2
  | .invalidTableRequest => 3

/-- The 2-bit code of RSP.STATUS (R35). -/
def Status.code : Status → BitVec 2
  | .ok => 0
  | .error e => e.code

/-- The 3-bit code of PHASE (R22). -/
def Phase.code : Phase → BitVec 3
  | .idle => 0
  | .init => 1
  | .consume => 2
  | .final => 3
  | .done => 4

/-- The 2-bit code of CFG.ALGO (R27). -/
def algoCode : Algo → BitVec 2
  | .bitSerial => 0
  | .table => 1
  | .optimizedTable => 2
  | .reflectedTable => 3

/-- The algorithm a 2-bit code selects (R27). -/
def algoOfCode (c : BitVec 2) : Algo :=
  match c.toNat with
  | 0 => .bitSerial
  | 1 => .table
  | 2 => .optimizedTable
  | _ => .reflectedTable

/-- The number of a register (R22): "names for a model; no instruction takes them as operands". -/
def Reg.number : Reg → BitVec 4
  | .phase => 0x0
  | .cmd => 0x1
  | .cfgW => 0x2
  | .cfgP => 0x3
  | .cfgI => 0x4
  | .cfgX => 0x5
  | .cfgRefin => 0x6
  | .cfgRefout => 0x7
  | .cfgAlgo => 0x8
  | .msg => 0x9
  | .idx => 0xA
  | .bitpos => 0xB
  | .reg => 0xC
  | .tbl => 0xD
  | .rspStatus => 0xE
  | .rspValue => 0xF

end Sys2Proof.Machine
end

