-- ==== Sys2Proof/Machine/Ops.lean ====
section
/-!
DEFINITION. The shared operations: bits and words (spec/00_scope.md R14 to R17), reflection
(spec/40_bit_reflector.md), the shift-and-XOR steps (spec/41_table_builder.md, spec/42_crc_engine.md), the
two data spaces (spec/20_memory.md), and what every request shares: reading a register, accepting, the error
exit, the response, and its delivery (R160, R161, R216).
-/

namespace Sys2Proof.Machine

/-! ### Bits and words -/

/-- `mask_w = 2^w - 1` (R14). -/
def mask (w : Nat) : Nat := 2 ^ w - 1

/-- `v[i] = (v >> i) & 1` (R14). -/
def bitAt (v i : Nat) : Nat := (v >>> i) &&& 1

/-- `v[hi:lo] = (v >> lo) & (2^(hi-lo+1) - 1)` (R14). -/
def field (v hi lo : Nat) : Nat := (v >>> lo) &&& (2 ^ (hi - lo + 1) - 1)

/-- `msb(r) = r[w-1]` (R16). -/
def msb (w r : Nat) : Nat := bitAt r (w - 1)

/-- `top8(r) = r[w-1:w-8]` (R16). -/
def top8 (w r : Nat) : Byte := BitVec.ofNat 8 (field r (w - 1) (w - 8))

/-- `low8(r) = r[7:0]` (R16). -/
def low8 (r : Nat) : Byte := BitVec.ofNat 8 (field r 7 0)

/-- `be(b0, ..., bk-1) = b0·2^(8(k-1)) + ... + bk-1`, and `be() = 0` (R15). -/
def be : List Byte → Nat
  | [] => 0
  | b :: l => b.toNat * 2 ^ (8 * l.length) + be l

/-- `zeros(k)`: `k` zero bytes (R15). -/
def zeros (k : Nat) : List Byte := List.replicate k 0

/-! ### Reflection -/

/-- `Σ_{i=0..n-1} v[i] · 2^(n-1-i)`, the sum of R110 and R111. -/
def reverseBits (v n : Nat) : Nat := ((List.range n).map fun i => bitAt v i * 2 ^ (n - 1 - i)).sum

/-- `reflect8(b)` (R110). -/
def reflect8 (b : Byte) : Byte := BitVec.ofNat 8 (reverseBits b.toNat 8)

/-- `reflectW(x, n)`: the low `n` bits of `x` reversed, after masking `x` to `n` bits (R111). -/
def reflectW (x n : Nat) : Nat := reverseBits (x &&& mask n) n

/-! ### The shift-and-XOR steps and the tables -/

/-- The shift-and-XOR step (R132). -/
def step1 (w p r : Nat) : Nat :=
  let r' := (r <<< 1) &&& mask w
  if msb w r = 1 then r' ^^^ p else r'

/-- `entry(c) = step1^8(c << (w-8))` (R133). -/
def entry (w p : Nat) (c : Byte) : Nat := (step1 w p)^[8] (c.toNat <<< (w - 8))

/-- `T_D` for the masked polynomial `p` (R134). -/
def directTable (w p : Nat) : Table := Vector.ofFn fun c => entry w p (BitVec.ofNat 8 c.val) &&& mask w

/-- `TblRead(i)` (R55): a byte index is always in range. -/
def tblRead (t : Table) (i : Byte) : Nat := t[i.toNat]

/-- The reflected table made from the direct one (R138): "entry at `reflect8(i)` holds `reflectW(T_D[i])`".
`reflect8` is its own inverse (R115), so entry `j` holds `reflectW(T_D[reflect8(j)])` (log entry 22). -/
def reflectTable (w : Nat) (t : Table) : Table :=
  Vector.ofFn fun j => reflectW (tblRead t (reflect8 (BitVec.ofNat 8 j.val))) w &&& mask w

/-- `T_R` for the masked polynomial `p` (R138). -/
def reflectedTable (w p : Nat) : Table := reflectTable w (directTable w p)

/-- The augmented bit step (R171). -/
def bitstep (w p r bit : Nat) : Nat :=
  let r' := ((r <<< 1) ||| bit) &&& mask w
  if msb w r = 1 then r' ^^^ p else r'

/-- The register after one augmented byte `a` of the Table variant (R181). -/
def tableStep (w : Nat) (t : Table) (r : Nat) (a : Byte) : Nat :=
  (((r <<< 8) ||| a.toNat) &&& mask w) ^^^ tblRead t (top8 w r)

/-- The register after one effective byte `b` of the OptimizedTable variant (R186). -/
def optimizedStep (w : Nat) (t : Table) (r : Nat) (b : Byte) : Nat :=
  ((r <<< 8) &&& mask w) ^^^ tblRead t (top8 w r ^^^ b)

/-- The register after the byte `c` of the ReflectedTable variant (R192). -/
def reflectedStep (t : Table) (r : Nat) (c : Byte) : Nat :=
  (r >>> 8) ^^^ tblRead t (BitVec.ofNat 8 ((r ^^^ c.toNat) &&& 0xFF))

/-! ### The message and the augmented stream -/

/-- `MsgRead(j)` (R52): defined for `0 ≤ j < len(MSG)`. -/
def msgRead (m : List Byte) (j : Nat) : Option Byte := m[j]?

/-- One byte of the effective message (R165). -/
def effectiveByte (refin : Bool) (b : Byte) : Byte := if refin then reflect8 b else b

/-- The effective message M′ (R165), a view of MSG. -/
def effective (refin : Bool) (m : List Byte) : List Byte := m.map (effectiveByte refin)

/-- The augmented stream `A = M′ ++ zeros(w/8)` (R166). -/
def augmented (refin : Bool) (w : Nat) (m : List Byte) : List Byte := effective refin m ++ zeros (w / 8)

/-- `be(A(0), ..., A(w/8 - 1))`, what the preload XORs into `init` (R170). -/
def preload (refin : Bool) (w : Nat) (m : List Byte) : Nat := be ((augmented refin w m).take (w / 8))

/-! ### What every request shares -/

/-- The outcome of a step of this machine. -/
abbrev StepOutcome := Host.Outcome State Fault Refusal

/-- Reading a register: a register that holds no value is a model fault, never zero (R40). -/
def readReg {α : Type} (r : Reg) (v : Option α) (k : α → StepOutcome) : StepOutcome :=
  match v with
  | some a => k a
  | none => .fault (.unwritten r)

/-- Reading element `j` of a stream: outside it is a model fault (R52). -/
def readStream (stream : List Byte) (j : Nat) (k : Byte → StepOutcome) : StepOutcome :=
  match msgRead stream j with
  | some b => k b
  | none => .fault (.msgReadOutOfRange j)

/-- The accept step's part that every command shares (R160): only in IDLE, and CMD is written. -/
def accept (cmd : CmdWord) (s : State) (k : State → StepOutcome) : StepOutcome :=
  match s.phase with
  | .idle => k { s with cmd := some cmd }
  | _ => .refused .requestWhileBusy

/-- The error exit, "the engine's whole trap entry" (R216): the status is the error's, RSP.VALUE holds no
value, PHASE is DONE. Nothing is saved, no mode changes and no handler address is taken. -/
def raise (e : ErrorKind) (s : State) : State :=
  { s with rspStatus := some (.error e), rspValue := none, phase := .done }

/-- The end of a request that succeeds: value, status OK, PHASE DONE (R112, R200). -/
def respond (v : RspValue) (s : State) : State :=
  { s with rspValue := some v, rspStatus := some .ok, phase := .done }

/-- PHASE is IDLE and every other register is dead (R41, R161); so is the builder's working state (R37). -/
def retire (s : State) : State :=
  { s with
    phase := .idle
    cmd := none, cfgW := none, cfgP := none, cfgI := none, cfgX := none, cfgRefin := none
    cfgRefout := none, cfgAlgo := none, msg := none, idx := none, bitpos := none, reg := none
    tbl := none, rspStatus := none, rspValue := none, builder := none }

/-- Response delivery, which is also the only return from an error (R161, R217): the host takes the pair
(RSP.STATUS, RSP.VALUE), RSP.VALUE only when the status is OK (R36), and the engine goes back to IDLE. -/
def deliver (s : State) : StepOutcome :=
  readReg .rspStatus s.rspStatus fun st =>
    match st with
    | .ok =>
      readReg .rspValue s.rspValue fun v =>
        .next (retire { s with responses := s.responses ++ [{ status := .ok, value := some v }] })
    | .error e =>
      .next (retire { s with responses := s.responses ++ [{ status := .error e, value := none }] })

/-- Reset (R240, R242, R243): the request in progress is abandoned without a response, every register but
PHASE is unwritten, and the cache is empty. The host's side and the parameters are not the engine's. -/
def assertReset (s : State) : State := { retire s with cache := [] }

end Sys2Proof.Machine
end

