-- ==== Sys2Proof/Machine/Operands.lean ====
section
/-!
DEFINITION. Operands at the accept step (spec/30_encoding.md R89): validating WIDTH and the message elements
(spec/42_crc_engine.md R163, spec/60_exceptions.md R212, R213), and latching a CRC request (R162). An operand
is never coerced into a valid one (R218); masking to `w` bits is the source's own rule (R25).
-/

namespace Sys2Proof.Machine

/-- `w` is a width the realisation accepts: at least 8, a multiple of 8, at most W_MAX (R9, R10, R163). -/
def widthAllowed (c : Config) (w : Nat) : Bool :=
  decide (8 ≤ w) && w % 8 == 0 && (match c.wMax with
    | some m => decide (w ≤ m)
    | none => true)

/-- `legal_width(WIDTH)` (R163): the width, when WIDTH is present, not negative and allowed. -/
def legalWidth (c : Config) : WidthPort → Option Nat
  | some (.ofNat w) => if widthAllowed c w then some w else none
  | some (.negSucc _) => none
  | none => none

/-- `valid_byte(e)` (R163): the byte, when `e = Int(n)` with `0 ≤ n ≤ 255`. -/
def validByte : Elem → Option Byte
  | .int (.ofNat n) => if n ≤ 255 then some (BitVec.ofNat 8 n) else none
  | .int (.negSucc _) => none
  | .nonInteger => none

/-- The elements as bytes, when every one of them is valid (R213). -/
def validBytes : List Elem → Option (List Byte)
  | [] => some []
  | e :: l =>
    match validByte e, validBytes l with
    | some b, some bs => some (b :: bs)
    | _, _ => none

/-- The writes of a validated CRC request (R162): POLY, INIT and XOROUT masked to `w` bits (R25), CFG.ALGO
from CMD[1:0] (R88), and PHASE INIT. -/
def latchCrc (cmd : CmdWord) (w : Nat) (o : CrcOperands) (m : List Byte) (s : State) : State :=
  { s with
    cfgW := some w
    cfgP := some (o.poly &&& mask w)
    cfgI := some (o.init &&& mask w)
    cfgX := some (o.xorout &&& mask w)
    cfgRefin := some o.refin
    cfgRefout := some o.refout
    cfgAlgo := some (algoOfCode (BitVec.ofNat 2 (cmd.toNat % 4)))
    msg := some m
    phase := .init }

/-- The CRC accept step (R162): WIDTH is tested first (R215), then the elements, before any other write. -/
def acceptCrc (cmd : CmdWord) (o : CrcOperands) (s : State) : StepOutcome :=
  accept cmd s fun s =>
    match legalWidth s.config o.width with
    | none => .next (raise .invalidWidth s)
    | some w =>
      match validBytes o.msg with
      | none => .next (raise .invalidMessageElement s)
      | some m => .next (latchCrc cmd w o m s)

end Sys2Proof.Machine
end

