-- ==== Sys2Proof/Machine/Builder.lean ====
section
/-!
DEFINITION. Constructing a table (spec/41_table_builder.md): the chain-closure method of R141 over the
builder's working state (R37), and the construction every table command shares, with the table cache of
spec/20_memory.md R58. Only the finished table is observable (R140).
-/

namespace Sys2Proof.Machine

/-! ### The chain-closure method (R141) -/

/-- `SLOT[c]`. -/
def slotAt (slot : Vector SlotStatus 256) (c : Byte) : SlotStatus := slot[c.toNat]

/-- `SLOT[c] <- v`. -/
def setSlot (slot : Vector SlotStatus 256) (c : Byte) (v : SlotStatus) : Vector SlotStatus 256 :=
  slot.set c.toNat v

/-- The builder before its first chain: every slot Unresolved but slot 0, which is Resolved(0). -/
def Builder.start : Builder :=
  { slot := setSlot (Vector.replicate 256 .unresolved) 0 (.resolved 0), chain := none }

/-- A chain from the seed `c`: "seed with the control value in its top byte". -/
def Chain.seeded (w : Nat) (c : Byte) : Chain :=
  { seed := c, cr := c.toNat <<< (w - 8), snap := [c.toNat <<< (w - 8)], k := 0, chainEnd := 8 }

/-- Snapshot `s = SNAP[K-8]` is resolvable: its slot gets `CR ^ ((s << 8) & mask_w)` unless it is Resolved. -/
def resolveSnapshot (w : Nat) (slot : Vector SlotStatus 256) (cr s : Nat) : Vector SlotStatus 256 :=
  match slotAt slot (top8 w s) with
  | .resolved _ => slot
  | _ => setSlot slot (top8 w s) (.resolved (cr ^^^ ((s <<< 8) &&& mask w)))

/-- The slots after snapshot K-8 of `ch` is resolved; for K < 8 there is no such snapshot in the window. -/
def resolveOldest (w : Nat) (slot : Vector SlotStatus 256) (ch : Chain) : Vector SlotStatus 256 :=
  match ch.snap[8]? with
  | some s => resolveSnapshot w slot ch.cr s
  | none => slot

/-- CR after one shift-and-XOR step, K counted, the snapshot kept (the window holds the last 9). -/
def Chain.shifted (w p : Nat) (ch : Chain) : Chain :=
  { ch with
    cr := step1 w p ch.cr
    k := ch.k + 1
    snap := (step1 w p ch.cr :: ch.snap).take 9 }

/-- "The chain is extended (endOfChain += 8)" when it has reached its end at an Unresolved slot. -/
def extendChain (w : Nat) (slot : Vector SlotStatus 256) (ch : Chain) : Vector SlotStatus 256 × Chain :=
  if ch.k = ch.chainEnd ∧ slotAt slot (top8 w ch.cr) = .unresolved then
    (setSlot slot (top8 w ch.cr) .inProgress, { ch with chainEnd := ch.chainEnd + 8 })
  else (slot, ch)

/-- One pass of the inner loop of R141. -/
def chainStep (w p : Nat) (slot : Vector SlotStatus 256) (ch : Chain) : Vector SlotStatus 256 × Chain :=
  extendChain w (resolveOldest w slot (ch.shifted w p)) (ch.shifted w p)

/-- The inner loop: `while K < END`. The fuel is the bound of R143, 2040 steps for a whole table. -/
def runChain (w p : Nat) : Nat → Vector SlotStatus 256 × Chain → Vector SlotStatus 256 × Chain
  | 0, sc => sc
  | fuel + 1, sc => if sc.2.k < sc.2.chainEnd then runChain w p fuel (chainStep w p sc.1 sc.2) else sc

/-- The most steps a table takes (R143). -/
def chainFuel : Nat := 2040

/-- The builder with a chain seeded at `c`, whose slot is marked InProgress. -/
def Builder.openChain (w : Nat) (c : Byte) (b : Builder) : Builder :=
  { slot := setSlot b.slot c .inProgress, chain := some (Chain.seeded w c) }

/-- The builder after its chain has run to its end. -/
def Builder.runOpen (w p : Nat) (b : Builder) : Builder :=
  match b.chain with
  | none => b
  | some ch =>
    let sc := runChain w p chainFuel (b.slot, ch)
    { slot := sc.1, chain := some sc.2 }

/-- One pass of the outer loop: a chain from `c` when its slot is Unresolved. -/
def Builder.resolveFrom (w p : Nat) (b : Builder) (c : Byte) : Builder :=
  match slotAt b.slot c with
  | .unresolved => ((b.openChain w c).runOpen w p)
  | _ => b

/-- The control values in the order the outer loop takes them. -/
def controlBytes : List Byte := (List.range 256).map (BitVec.ofNat 8)

/-- `build_chain(P, w)`: the builder when the outer loop has ended. -/
def Builder.run (w p : Nat) (b : Builder) : Builder := controlBytes.foldl (Builder.resolveFrom w p) b

/-- The value a slot gives its table entry, if it is Resolved. -/
def SlotStatus.value? : SlotStatus → Option Nat
  | .resolved v => some v
  | _ => none

/-- The table written from the slots; a slot that is not Resolved gives its entry no value, and then there is
no finished table (log entry 18; it never happens, R141). -/
def Builder.table? (w : Nat) (b : Builder) : Option Table :=
  if b.slot.all (fun x => x.value?.isSome) then
    some (b.slot.map fun x => (x.value?.getD 0) &&& mask w)
  else none

/-- The number of step1 applications of a chain from `c` (R143): K when the chain has ended. -/
def Builder.stepsFrom (w p : Nat) (b : Builder) (c : Byte) : Nat :=
  match slotAt b.slot c with
  | .unresolved => (match (b.resolveFrom w p c).chain with
    | some ch => ch.k
    | none => 0)
  | _ => 0

/-- The number of step1 applications of the chain-closure method for a whole table (R143). -/
def chainStepCount (w p : Nat) : Nat :=
  (controlBytes.foldl (fun (bn : Builder × Nat) c => (bn.1.resolveFrom w p c, bn.2 + bn.1.stepsFrom w p c))
    (Builder.start, 0)).2

/-! ### The construction (R134, R138, R140, R144) and the cache (R58) -/

/-- The finished table of a key: `T_D` (R134) or `T_R` (R138). -/
def finishedTable (key : CacheKey) : Table :=
  if key.reflected then reflectedTable key.w key.p else directTable key.w key.p

/-- The builder's working state comes into being when the method needs it (R37, R141). -/
def openBuilder (s : State) : State :=
  match s.config.buildMethod with
  | .bruteForce => s
  | .chainClosure => { s with builder := some Builder.start }

/-- The builder runs its chains for the key's polynomial and width (R141). -/
def runBuilder (key : CacheKey) (s : State) : State :=
  { s with builder := s.builder.map (Builder.run key.w key.p) }

/-- The direct table when the method has run: the walk of R133 for each entry, or the builder's slots. -/
def builtDirect (key : CacheKey) (s : State) : Option Table :=
  match s.config.buildMethod with
  | .bruteForce => some (directTable key.w key.p)
  | .chainClosure => s.builder.bind (Builder.table? key.w)

/-- The table of a key when the method has run; the direct table a reflected one is made from "exists only
inside the construction" (R139). -/
def builtTable (key : CacheKey) (s : State) : Option Table :=
  (builtDirect key s).map fun t => if key.reflected then reflectTable key.w t else t

/-- The cached table of a key, if there is one. -/
def cacheLookup (cache : List (CacheKey × Table)) (key : CacheKey) : Option Table :=
  (cache.find? fun e => e.1 == key).map Prod.snd

/-- A cache after a build of `key` has finished (R58): an entry is "written once, when its first build
finishes, and never changed". A realisation without a cache keeps nothing. -/
def cacheInsert (m : CacheMode) (cache : List (CacheKey × Table)) (key : CacheKey) (t : Table) :
    List (CacheKey × Table) :=
  match m with
  | .uncached => cache
  | .keyed => if (cacheLookup cache key).isSome then cache else cache ++ [(key, t)]

/-- The cached table a construction may use in place of building one: only with a keyed cache, and only when
the key matches exactly (R58). -/
def cachedTable (s : State) (key : CacheKey) : Option Table :=
  match s.config.tableCache with
  | .uncached => none
  | .keyed => cacheLookup s.cache key

/-- The table store holds the finished table and the builder's working state is gone (R34, R37). -/
def closeBuilder (t : Table) (s : State) : State := { s with tbl := some t, builder := none }

/-- The finished table is kept (R58). -/
def rememberTable (key : CacheKey) (t : Table) (s : State) : State :=
  { s with cache := cacheInsert s.config.tableCache s.cache key t }

/-- A construction that builds: the builder comes into being, runs, and is gone when TBL holds the table. -/
def buildInto (key : CacheKey) (s : State) (k : Table → State → StepOutcome) : StepOutcome :=
  readReg .tbl (builtTable key (runBuilder key (openBuilder s))) fun t =>
    k t (rememberTable key t (closeBuilder t s))

/-- `construct T for (P, w) into TBL` (R134, R138, R144), from the cache or by building (R58, R140; log
entry 6). -/
def construct (key : CacheKey) (s : State) (k : Table → State → StepOutcome) : StepOutcome :=
  match cachedTable s key with
  | some t => k t (closeBuilder t s)
  | none => buildInto key s k

end Sys2Proof.Machine
end

