-- ==== Sys2Proof/Machine/CrcSteps.lean ====
section
/-!
DEFINITION. The sequencer's steps of a CRC request after its accept step (spec/42_crc_engine.md): INIT (R170,
R180, R185, R190), CONSUME (R172, R181, R186, R192) and FINAL (R200, R201). Each reads the registers it needs
and is a model fault when one holds no value (R40).
-/

namespace Sys2Proof.Machine

/-- `PHASE <- (go on) ? CONSUME : FINAL`. -/
def nextPhase (more : Bool) : Phase := if more then .consume else .final

/-! ### INIT -/

/-- INIT, BitSerial (R170): the preload. -/
def initBitSerial (s : State) : StepOutcome :=
  readReg .cfgW s.cfgW fun w =>
  readReg .cfgI s.cfgI fun i =>
  readReg .cfgRefin s.cfgRefin fun refin =>
  readReg .msg s.msg fun m =>
    .next { s with
      reg := some (i ^^^ preload refin w m)
      idx := some (w / 8)
      bitpos := some 7
      phase := nextPhase (w / 8 < (augmented refin w m).length) }

/-- INIT, Table (R180): the direct table, then the preload. -/
def initTable (s : State) : StepOutcome :=
  readReg .cfgW s.cfgW fun w =>
  readReg .cfgP s.cfgP fun p =>
  readReg .cfgI s.cfgI fun i =>
  readReg .cfgRefin s.cfgRefin fun refin =>
  readReg .msg s.msg fun m =>
  construct { p := p, w := w, reflected := false } s fun _ s =>
    .next { s with
      reg := some (i ^^^ preload refin w m)
      idx := some (w / 8)
      phase := nextPhase (w / 8 < (augmented refin w m).length) }

/-- INIT, OptimizedTable (R185): the direct table, the register at CFG.I, no padding. -/
def initOptimized (s : State) : StepOutcome :=
  readReg .cfgW s.cfgW fun w =>
  readReg .cfgP s.cfgP fun p =>
  readReg .cfgI s.cfgI fun i =>
  readReg .msg s.msg fun m =>
  construct { p := p, w := w, reflected := false } s fun _ s =>
    .next { s with reg := some i, idx := some 0, phase := nextPhase (0 < m.length) }

/-- INIT, ReflectedTable (R190): the reflected table, the register held reflected. -/
def initReflected (s : State) : StepOutcome :=
  readReg .cfgW s.cfgW fun w =>
  readReg .cfgP s.cfgP fun p =>
  readReg .cfgI s.cfgI fun i =>
  readReg .msg s.msg fun m =>
  construct { p := p, w := w, reflected := true } s fun _ s =>
    .next { s with reg := some (reflectW i w), idx := some 0, phase := nextPhase (0 < m.length) }

/-- The INIT step of the selected algorithm. -/
def stepInit (s : State) : StepOutcome :=
  readReg .cfgAlgo s.cfgAlgo fun algo =>
    match algo with
    | .bitSerial => initBitSerial s
    | .table => initTable s
    | .optimizedTable => initOptimized s
    | .reflectedTable => initReflected s

/-! ### CONSUME -/

/-- CONSUME, BitSerial (R172): one bit, the most significant bit of a byte first. -/
def consumeBitSerial (s : State) : StepOutcome :=
  readReg .cfgW s.cfgW fun w =>
  readReg .cfgP s.cfgP fun p =>
  readReg .cfgRefin s.cfgRefin fun refin =>
  readReg .msg s.msg fun m =>
  readReg .idx s.idx fun idx =>
  readReg .bitpos s.bitpos fun bp =>
  readReg .reg s.reg fun r =>
  readStream (augmented refin w m) idx fun a =>
    .next { s with
      reg := some (bitstep w p r (bitAt a.toNat bp.val))
      bitpos := some (if bp = 0 then 7 else bp - 1)
      idx := some (if bp = 0 then idx + 1 else idx)
      phase := nextPhase ((if bp = 0 then idx + 1 else idx) != (augmented refin w m).length) }

/-- CONSUME, Table (R181): one byte of the augmented stream. -/
def consumeTable (s : State) : StepOutcome :=
  readReg .cfgW s.cfgW fun w =>
  readReg .cfgRefin s.cfgRefin fun refin =>
  readReg .msg s.msg fun m =>
  readReg .idx s.idx fun idx =>
  readReg .reg s.reg fun r =>
  readReg .tbl s.tbl fun t =>
  readStream (augmented refin w m) idx fun a =>
    .next { s with
      reg := some (tableStep w t r a)
      idx := some (idx + 1)
      phase := nextPhase (idx + 1 != (augmented refin w m).length) }

/-- CONSUME, OptimizedTable (R186): one byte of the effective message. -/
def consumeOptimized (s : State) : StepOutcome :=
  readReg .cfgW s.cfgW fun w =>
  readReg .cfgRefin s.cfgRefin fun refin =>
  readReg .msg s.msg fun m =>
  readReg .idx s.idx fun idx =>
  readReg .reg s.reg fun r =>
  readReg .tbl s.tbl fun t =>
  readStream m idx fun b =>
    .next { s with
      reg := some (optimizedStep w t r (effectiveByte refin b))
      idx := some (idx + 1)
      phase := nextPhase (idx + 1 != m.length) }

/-- CONSUME, ReflectedTable (R192): with REFIN = 1 the byte as it stands, otherwise reflected. -/
def consumeReflected (s : State) : StepOutcome :=
  readReg .cfgRefin s.cfgRefin fun refin =>
  readReg .msg s.msg fun m =>
  readReg .idx s.idx fun idx =>
  readReg .reg s.reg fun r =>
  readReg .tbl s.tbl fun t =>
  readStream m idx fun b =>
    .next { s with
      reg := some (reflectedStep t r (if refin then b else reflect8 b))
      idx := some (idx + 1)
      phase := nextPhase (idx + 1 != m.length) }

/-- The CONSUME step of the selected algorithm. -/
def stepConsume (s : State) : StepOutcome :=
  readReg .cfgAlgo s.cfgAlgo fun algo =>
    match algo with
    | .bitSerial => consumeBitSerial s
    | .table => consumeTable s
    | .optimizedTable => consumeOptimized s
    | .reflectedTable => consumeReflected s

/-! ### FINAL -/

/-- The register reflected or not, then XORed with CFG.X; `flip` says whether to reflect. -/
def finish (flip : Bool) (w x r : Nat) : Nat := (if flip then reflectW r w else r) ^^^ x

/-- Whether FINAL reflects the register: the direct variants when REFOUT = 1 (R200), ReflectedTable, whose
register is already reflected, when REFOUT = 0 (R201). -/
def finalFlip (algo : Algo) (refout : Bool) : Bool :=
  match algo with
  | .bitSerial => refout
  | .table => refout
  | .optimizedTable => refout
  | .reflectedTable => !refout

/-- The FINAL step (R200, R201). -/
def stepFinal (s : State) : StepOutcome :=
  readReg .cfgAlgo s.cfgAlgo fun algo =>
  readReg .cfgW s.cfgW fun w =>
  readReg .cfgRefout s.cfgRefout fun refout =>
  readReg .cfgX s.cfgX fun x =>
  readReg .reg s.reg fun r =>
    .next (respond (.nat (finish (finalFlip algo refout) w x r)) s)

end Sys2Proof.Machine
end

