-- ==== Sys2Proof/Machine/BitReflector.lean ====
section
/-!
DEFINITION. The meanings of RFB, RFW and RFS (spec/40_bit_reflector.md R112 to R114). Each takes one step,
from IDLE to DONE.
-/

namespace Sys2Proof.Machine

/-- RFB, command word 0x10 (R112): no failure mode. -/
def execRfb (b : Byte) (s : State) : StepOutcome :=
  accept 0x10 s fun s => .next (respond (.byte (reflect8 b)) s)

/-- RFW, command word 0x20 (R113): X is masked to N bits first; any N, including 0; no failure mode. -/
def execRfw (x n : Nat) (s : State) : StepOutcome :=
  accept 0x20 s fun s => .next (respond (.nat (reflectW x n)) s)

/-- RFS, command word 0x30 (R114): one bad element anywhere fails the whole request; otherwise MSG holds the
sequence and the response is its reflection, order and length preserved. -/
def execRfs (seq : List Elem) (s : State) : StepOutcome :=
  accept 0x30 s fun s =>
    match validBytes seq with
    | none => .next (raise .invalidMessageElement s)
    | some m => .next (respond (.bytes (m.map reflect8)) { s with msg := some m })

end Sys2Proof.Machine
end

