-- ==== Sys2Proof/Machine/CrcEngine.lean ====
section
/-!
DEFINITION. The meanings of CRC.BS, CRC.TB, CRC.OT and CRC.RT (spec/42_crc_engine.md R162, R173, R182, R187,
R193): the accept step, which ends in INIT, or in DONE on an error (R160). The sequencer's later steps, INIT,
CONSUME and FINAL, stand in Machine/CrcSteps.lean.
-/

namespace Sys2Proof.Machine

/-- CRC.BS, command word 0x80, ALGO = 0 (R173). -/
def execCrcBS (o : CrcOperands) (s : State) : StepOutcome := acceptCrc 0x80 o s

/-- CRC.TB, command word 0x81, ALGO = 1 (R182). -/
def execCrcTB (o : CrcOperands) (s : State) : StepOutcome := acceptCrc 0x81 o s

/-- CRC.OT, command word 0x82, ALGO = 2 (R187). -/
def execCrcOT (o : CrcOperands) (s : State) : StepOutcome := acceptCrc 0x82 o s

/-- CRC.RT, command word 0x83, ALGO = 3 (R193). -/
def execCrcRT (o : CrcOperands) (s : State) : StepOutcome := acceptCrc 0x83 o s

end Sys2Proof.Machine
end

