-- ==== Sys2Proof/Machine/TableBuilder.lean ====
section
/-!
DEFINITION. The meanings of BLD.D and BLD.R (spec/41_table_builder.md R137, R139). Each takes one step, from
IDLE to DONE, with the whole construction inside it.
-/

namespace Sys2Proof.Machine

/-- What BLD.D and BLD.R share: WIDTH is validated (R131), CFG.W and CFG.P are written (R25), the table is
constructed into TBL and is the response. -/
def buildRequest (reflected : Bool) (poly : Nat) (width : WidthPort) (s : State) : StepOutcome :=
  match legalWidth s.config width with
  | none => .next (raise .invalidTableRequest s)
  | some w =>
    construct { p := poly &&& mask w, w := w, reflected := reflected }
      { s with cfgW := some w, cfgP := some (poly &&& mask w) }
      fun t s => .next (respond (.table t) s)

/-- BLD.D, command word 0x40 (R137): the direct table. -/
def execBldD (poly : Nat) (width : WidthPort) (s : State) : StepOutcome :=
  accept 0x40 s (buildRequest false poly width)

/-- BLD.R, command word 0x41 (R139): the reflected table. -/
def execBldR (poly : Nat) (width : WidthPort) (s : State) : StepOutcome :=
  accept 0x41 s (buildRequest true poly width)

end Sys2Proof.Machine
end

