-- ==== Sys2Proof/Machine/Dispatch.lean ====
section
/-!
DEFINITION. One arm per instruction: `exec` is the accept step of a decoded request (spec/42_crc_engine.md R160).
-/

namespace Sys2Proof.Machine

def exec (i : Instr) (s : State) : Host.Outcome State Fault Refusal :=
  match i with
  | .rfb b => Sys2Proof.Machine.execRfb b s
  | .rfw x n => Sys2Proof.Machine.execRfw x n s
  | .rfs seq => Sys2Proof.Machine.execRfs seq s
  | .bldD poly width => Sys2Proof.Machine.execBldD poly width s
  | .bldR poly width => Sys2Proof.Machine.execBldR poly width s
  | .crcBS o => Sys2Proof.Machine.execCrcBS o s
  | .crcTB o => Sys2Proof.Machine.execCrcTB o s
  | .crcOT o => Sys2Proof.Machine.execCrcOT o s
  | .crcRT o => Sys2Proof.Machine.execCrcRT o s

end Sys2Proof.Machine
end

