-- ==== Sys2Proof/Machine/Sequencer.lean ====
section
/-!
DEFINITION. What a step does around `exec`: the reset input, the phases of the sequencer (spec/10_state.md R30),
the host's moves (spec/42_crc_engine.md R160, R161) and presenting a request.
-/

namespace Sys2Proof.Machine

/-- IDLE: the host presents its next request (R96, R160) and the engine accepts it, or refuses a reserved word
(R90). With no request the instance "does nothing until the host presents one" (R231; log entry 3). -/
def acceptNext (s : State) : StepOutcome :=
  match s.script with
  | [] => .next s
  | r :: rest =>
    match decode r with
    | .ok i => exec i { s with script := rest }
    | .error (.reserved c) => .refused (.reservedCommand c)

/-- What the next step of the instance does, by PHASE (R30). -/
def advance (s : State) : StepOutcome :=
  match s.phase with
  | .idle => acceptNext s
  | .init => stepInit s
  | .consume => stepConsume s
  | .final => stepFinal s
  | .done => deliver s

/-- The step's sample of the reset input is taken. -/
def dropPin (s : State) : State := { s with resetPin := s.resetPin.tail }

/-- One step: reset when it is asserted at this step (R242), otherwise the sequencer's step. -/
def tick (s : State) : StepOutcome :=
  match s.resetPin with
  | true :: _ => .next (assertReset (dropPin s))
  | _ => advance (dropPin s)

/-- The host has `r` to issue next, the instance is in IDLE and reset is not asserted at the next step. -/
def present (r : Request) (s : State) : State :=
  { s with phase := .idle, script := r :: s.script, resetPin := false :: s.resetPin }

/-- `present` for the word of a table row, where that word is a request (log entry 14). -/
def presentWord (nbits w : Nat) (s : State) : State :=
  match tableRequest nbits w with
  | some r => present r s
  | none => s

end Sys2Proof.Machine
end

