-- ==== Sys2Proof/Machine/Step.lean ====
section
/-!
DEFINITION. The step of the machine, and presenting a request of the opcode table.
-/

namespace Sys2Proof.Machine

/-- One step of the engine and its host (spec/70_reset_and_hazards.md R249: "a step is one state change of the
sequencer"). -/
def step (s : State) : Host.Outcome State Fault Refusal := tick s

/-- `s` with the request of the table word `w` the next one its host issues, so that the next step runs it. -/
def State.withFetchWord (s : State) (nbits w : Nat) : State := presentWord nbits w s

end Sys2Proof.Machine
end

