-- ==== Sys2Proof/Machine/Reference.lean ====
section
/-!
DEFINITION. The spec's one-function summaries of the CRC commands (spec/42_crc_engine.md R173, R182, R187,
R193) and its bitwise reference function (R164), "an executable oracle, and not itself a variant". The machine
calls none of them; claims compare the machine with them.
-/

namespace Sys2Proof.Machine

/-- The configuration of a validated CRC request: the width, the masked polynomial, initial value and xorout,
and the two reflection flags (R25, R26). -/
structure CrcCfg where
  w : Nat
  p : Nat
  i : Nat
  x : Nat
  refin : Bool
  refout : Bool
deriving DecidableEq, Repr

/-- The configuration a CRC request latches for the legal width `w` (R162). -/
def crcCfgOf (o : CrcOperands) (w : Nat) : CrcCfg :=
  { w := w, p := o.poly &&& mask w, i := o.init &&& mask w, x := o.xorout &&& mask w
    refin := o.refin, refout := o.refout }

/-- The bits of a byte in the order "for k in 7 down to 0" (R54, R164). -/
def bitsDown (b : Byte) : List Nat := [7, 6, 5, 4, 3, 2, 1, 0].map (bitAt b.toNat)

/-- One bit of `crc_ref` (R164). -/
def crcRefBit (w p r bit : Nat) : Nat :=
  let r' := (r <<< 1) &&& mask w
  if msb w r ^^^ bit = 1 then r' ^^^ p else r'

/-- One byte of `crc_ref` (R164). -/
def crcRefByte (w p r : Nat) (b : Byte) : Nat := (bitsDown b).foldl (crcRefBit w p) r

/-- `crc_ref()` (R164). -/
def crcRef (c : CrcCfg) (m : List Byte) : Nat :=
  finish c.refout c.w c.x ((effective c.refin m).foldl (crcRefByte c.w c.p) c.i)

/-- CRC.BS as one function (R173). -/
def crcBitSerial (c : CrcCfg) (m : List Byte) : Nat :=
  finish c.refout c.w c.x
    ((((augmented c.refin c.w m).drop (c.w / 8)).flatMap bitsDown).foldl (bitstep c.w c.p)
      (c.i ^^^ preload c.refin c.w m))

/-- CRC.TB as one function (R182). -/
def crcTable (c : CrcCfg) (m : List Byte) : Nat :=
  finish c.refout c.w c.x
    (((augmented c.refin c.w m).drop (c.w / 8)).foldl (tableStep c.w (directTable c.w c.p))
      (c.i ^^^ preload c.refin c.w m))

/-- The register of OptimizedTable after the effective bytes `l` (R186). -/
def optimizedRegister (c : CrcCfg) (l : List Byte) : Nat :=
  l.foldl (optimizedStep c.w (directTable c.w c.p)) c.i

/-- CRC.OT as one function (R187). -/
def crcOptimized (c : CrcCfg) (m : List Byte) : Nat :=
  finish c.refout c.w c.x (optimizedRegister c (effective c.refin m))

/-- The register of ReflectedTable after the effective bytes `l` (R192, R193). -/
def reflectedRegister (c : CrcCfg) (l : List Byte) : Nat :=
  (l.map reflect8).foldl (reflectedStep (reflectedTable c.w c.p)) (reflectW c.i c.w)

/-- CRC.RT as one function (R193). -/
def crcReflected (c : CrcCfg) (m : List Byte) : Nat :=
  finish (!c.refout) c.w c.x (reflectedRegister c (effective c.refin m))

/-- The summary function of each algorithm. -/
def crcValue (algo : Algo) (c : CrcCfg) (m : List Byte) : Nat :=
  match algo with
  | .bitSerial => crcBitSerial c m
  | .table => crcTable c m
  | .optimizedTable => crcOptimized c m
  | .reflectedTable => crcReflected c m

/-- The reading R203 forbids: the register starts at `init` and all of `A` is shifted in. -/
def crcLiteralReading (c : CrcCfg) (m : List Byte) : Nat :=
  finish c.refout c.w c.x (((augmented c.refin c.w m).flatMap bitsDown).foldl (bitstep c.w c.p) c.i)

end Sys2Proof.Machine
end

