-- ==== Sys2Proof/Safety.lean ====
section
/-!
DEFINITION. What counts as a safe state and a safe run, in the terms the claims use: which registers hold a
value in which phase (spec/10_state.md R22, R34, R36, R40, R41), the bound of every register (R204), and the
table cache (spec/20_memory.md R58).
-/

namespace Sys2Proof.Machine

/-- Every register but PHASE holds no value (R41, R240). -/
def Dead (s : State) : Prop :=
  s.cmd = none ∧ s.cfgW = none ∧ s.cfgP = none ∧ s.cfgI = none ∧ s.cfgX = none ∧ s.cfgRefin = none ∧
  s.cfgRefout = none ∧ s.cfgAlgo = none ∧ s.msg = none ∧ s.idx = none ∧ s.bitpos = none ∧ s.reg = none ∧
  s.tbl = none ∧ s.rspStatus = none ∧ s.rspValue = none

/-- No response has been formed yet. -/
def NoResponse (s : State) : Prop := s.rspStatus = none ∧ s.rspValue = none

/-- The command word of a CRC algorithm (R87). -/
def crcWord (algo : Algo) : CmdWord :=
  match algo with
  | .bitSerial => 0x80
  | .table => 0x81
  | .optimizedTable => 0x82
  | .reflectedTable => 0x83

/-- The CRC instruction of an algorithm (R87). -/
def crcInstr (algo : Algo) (o : CrcOperands) : Instr :=
  match algo with
  | .bitSerial => .crcBS o
  | .table => .crcTB o
  | .optimizedTable => .crcOT o
  | .reflectedTable => .crcRT o

/-- A latched CRC request. -/
structure Latched where
  cfg : CrcCfg
  algo : Algo
  msg : List Byte

/-- `s` holds the CRC request `l` in CMD, CFG.* and MSG. -/
def Holds (s : State) (l : Latched) : Prop :=
  s.cmd = some (crcWord l.algo) ∧ s.cfgW = some l.cfg.w ∧ s.cfgP = some l.cfg.p ∧ s.cfgI = some l.cfg.i ∧
  s.cfgX = some l.cfg.x ∧ s.cfgRefin = some l.cfg.refin ∧ s.cfgRefout = some l.cfg.refout ∧
  s.cfgAlgo = some l.algo ∧ s.msg = some l.msg

/-- The latched configuration is legal: CFG.W is an allowed width (R24), the masked operands fit (R25). -/
def LegalCfg (k : Config) (c : CrcCfg) : Prop :=
  widthAllowed k c.w = true ∧ c.p < 2 ^ c.w ∧ c.i < 2 ^ c.w ∧ c.x < 2 ^ c.w

/-- The number of stream units of a request: the augmented stream for BitSerial and Table, the message for the
others (R31). -/
def streamLen (l : Latched) : Nat :=
  match l.algo with
  | .bitSerial => (augmented l.cfg.refin l.cfg.w l.msg).length
  | .table => (augmented l.cfg.refin l.cfg.w l.msg).length
  | .optimizedTable => l.msg.length
  | .reflectedTable => l.msg.length

/-- The index at which CONSUME begins (R170, R180, R185, R190). -/
def firstIdx (l : Latched) : Nat :=
  match l.algo with
  | .bitSerial => l.cfg.w / 8
  | .table => l.cfg.w / 8
  | .optimizedTable => 0
  | .reflectedTable => 0

/-- TBL holds the complete table the variant uses; BitSerial has none (R34). -/
def TblOk (s : State) (l : Latched) : Prop :=
  match l.algo with
  | .bitSerial => s.tbl = none
  | .table => s.tbl = some (directTable l.cfg.w l.cfg.p)
  | .optimizedTable => s.tbl = some (directTable l.cfg.w l.cfg.p)
  | .reflectedTable => s.tbl = some (reflectedTable l.cfg.w l.cfg.p)

/-- REG holds a value of `w` bits (R22, R204). -/
def RegOk (s : State) (l : Latched) : Prop := ∃ r, s.reg = some r ∧ r < 2 ^ l.cfg.w

/-- IDX is a unit of the stream still to be taken. -/
def IdxOk (s : State) (l : Latched) : Prop := ∃ k, s.idx = some k ∧ firstIdx l ≤ k ∧ k < streamLen l

/-- The error kinds each command can raise (R210). -/
def mayRaise (op : Opcode) (e : ErrorKind) : Bool :=
  match op, e with
  | .rfs, .invalidMessageElement => true
  | .bld _, .invalidTableRequest => true
  | .crc _, .invalidWidth => true
  | .crc _, .invalidMessageElement => true
  | _, _ => false

/-- RSP.VALUE has the kind of its command, and a table or a CRC fits in `w` bits (R36). -/
def ValueOk (op : Opcode) (s : State) (v : RspValue) : Prop :=
  match op with
  | .rfb => ∃ b, v = .byte b
  | .rfw => ∃ n, v = .nat n
  | .rfs => ∃ m, s.msg = some m ∧ v = .bytes (m.map reflect8)
  | .bld _ => ∃ t w, s.cfgW = some w ∧ v = .table t ∧ ∀ c : Byte, tblRead t c < 2 ^ w
  | .crc _ => ∃ n w, s.cfgW = some w ∧ v = .nat n ∧ n < 2 ^ w

/-- In DONE the status is written, and the value exactly when the status is OK (R36, R86). -/
def ResponseOk (s : State) : Prop :=
  ∃ c op, s.cmd = some c ∧ decodeWord c = .ok op ∧
    ((∃ v, s.rspStatus = some .ok ∧ s.rspValue = some v ∧ ValueOk op s v) ∨
     (∃ e, s.rspStatus = some (.error e) ∧ s.rspValue = none ∧ mayRaise op e = true))

/-- Every cached table is the finished table of its key, keys are legal and have one entry each, and a
realisation without a cache keeps nothing (R38, R58). -/
def CacheOk (s : State) : Prop :=
  (∀ e ∈ s.cache, e.2 = finishedTable e.1 ∧ e.1.p < 2 ^ e.1.w ∧ 8 ≤ e.1.w ∧ e.1.w % 8 = 0) ∧
  (s.cache.map Prod.fst).Nodup ∧
  (s.config.tableCache = .uncached → s.cache = [])

/-- What the registers hold in each phase. -/
def PhaseOk (s : State) : Prop :=
  match s.phase with
  | .idle => Dead s
  | .init => ∃ l, Holds s l ∧ LegalCfg s.config l.cfg ∧ s.idx = none ∧ s.bitpos = none ∧ s.reg = none ∧
      s.tbl = none ∧ NoResponse s
  | .consume => ∃ l, Holds s l ∧ LegalCfg s.config l.cfg ∧ TblOk s l ∧ RegOk s l ∧ IdxOk s l ∧
      (l.algo = .bitSerial → ∃ b, s.bitpos = some b) ∧ NoResponse s
  | .final => ∃ l, Holds s l ∧ LegalCfg s.config l.cfg ∧ TblOk s l ∧ RegOk s l ∧
      s.idx = some (streamLen l) ∧ NoResponse s
  | .done => ResponseOk s

/-- The invariant of the engine. -/
def EngineInv (s : State) : Prop := s.builder = none ∧ CacheOk s ∧ PhaseOk s

/-- Reset is not asserted at the next `n` steps. -/
def Quiet (n : Nat) (s : State) : Prop := ∀ b ∈ s.resetPin.take n, b = false

/-- The host is about to issue `r` to an instance in IDLE. -/
def Issues (s : State) (r : Request) (rest : List Request) : Prop := s.phase = .idle ∧ s.script = r :: rest

/-- Reset is not asserted at the next step. -/
def ResetClear (s : State) : Prop := s.resetPin.head? ≠ some true

/-- `w` is a legal width of the realisation (R9, R10, R163). -/
def LegalWidth (k : Config) (w : Nat) : Prop := 8 ≤ w ∧ w % 8 = 0 ∧ ∀ m, k.wMax = some m → w ≤ m

/-- WIDTH fails `legal_width` (R212): it is missing, is below 8 (zero and negative widths among them), is not a
multiple of 8, or exceeds W_MAX. -/
def IllegalWidth (k : Config) (v : WidthPort) : Prop :=
  v = none ∨ ∃ n : Int, v = some n ∧ (n < 8 ∨ n % 8 ≠ 0 ∨ ∃ m : Nat, k.wMax = some m ∧ (m : Int) < n)

/-- The elements that stand for the bytes `m` (R85). -/
def byteElems (m : List Byte) : List Elem := m.map fun b => .int (b.toNat : Int)

/-- Some element fails `valid_byte` (R213): an integer outside 0..255, or no integer. -/
def HasInvalidElem (l : List Elem) : Prop :=
  ∃ e ∈ l, e = .nonInteger ∨ ∃ n : Int, e = .int n ∧ (n < 0 ∨ 255 < n)

/-! ### What requests leave, as the claims write it -/

/-- What a validated CRC request latches (R162): the operands masked to `w` bits (R25), the algorithm of its
command word (R88), the message, PHASE INIT; nothing else. -/
def crcAccepted (cmd : CmdWord) (algo : Algo) (o : CrcOperands) (w : Nat) (m : List Byte) (s : State) : State :=
  { s with
    cmd := some cmd, cfgW := some w, cfgP := some (o.poly % 2 ^ w), cfgI := some (o.init % 2 ^ w)
    cfgX := some (o.xorout % 2 ^ w), cfgRefin := some o.refin, cfgRefout := some o.refout
    cfgAlgo := some algo, msg := some m, phase := .init }

/-- The end of a CRC request whose accept step raises `e` (R216). -/
def crcRejected (cmd : CmdWord) (e : ErrorKind) (s : State) : State :=
  { s with cmd := some cmd, rspStatus := some (.error e), rspValue := none, phase := .done }

/-- From `s` a request reaches DONE in `n` steps and its response is OK with `value`; the host's side and the
parameters stay. -/
def RunsTo (n : Nat) (s : State) (rest : List Request) (value : Nat) : Prop :=
  ∃ t, Host.Core.run Sys2Proof.core n s = .next t ∧ t.phase = .done ∧ t.rspStatus = some .ok ∧
    t.rspValue = some (.nat value) ∧ t.script = rest ∧ t.responses = s.responses ∧ t.config = s.config

/-- The CRC-16/CCITT configuration of spec/95_test_vectors.md L1-3. -/
def ccittCfg : CrcCfg := { w := 16, p := 0x1021, i := 0xFFFF, x := 0, refin := false, refout := false }

end Sys2Proof.Machine
end

