-- ==== Sys2Proof/Certificates/Slice0/Obligations.lean ====
section
/-!
DEFINITION. The statements for the provers, one definition each. A statement about a step takes the reset input
not asserted (`ResetClear`) except where it says what reset does; a statement about constructing a table takes
the cache's invariant `CacheOk`, which `StepKeepsInvariant` says every step keeps.
-/

namespace Sys2Proof.Machine

/-- The polynomial over GF(2) whose coefficients are the bits of `v` (R135). -/
noncomputable def polyOf (v : Nat) : Polynomial (ZMod 2) :=
  ∑ i ∈ Finset.range v.size, if v.testBit i then Polynomial.X ^ i else 0

end Sys2Proof.Machine

open Sys2Proof Sys2Proof.Machine

/-! ### Encoding -/

/-- Command words written out from CLASS and SUB (R81) decode to the operation of R87; 0x42 and 0x00 spell none. -/
def Obligations.CommandWordsDecodeAsListed : Prop :=
  decodeWord 0b0001_0000 = .ok .rfb ∧ decodeWord 0b0010_0000 = .ok .rfw ∧ decodeWord 0b0011_0000 = .ok .rfs ∧
  decodeWord 0b0100_0000 = .ok (.bld false) ∧ decodeWord 0b0100_0001 = .ok (.bld true) ∧
  decodeWord 0b1000_0000 = .ok (.crc .bitSerial) ∧ decodeWord 0b1000_0011 = .ok (.crc .reflectedTable) ∧
  decodeWord 0b0100_0010 = .error (.reserved 0b0100_0010) ∧ decodeWord 0 = .error (.reserved 0)

/-- Decoding and encoding agree in both directions, and what decodes depends on the ports the command reads
alone (R83, R87, R93). -/
def Obligations.DecodeAndEncodeAgree : Prop :=
  (∀ i, decode (encode i) = .ok i) ∧
  (∀ r i, decode r = .ok i → r.cmd = encodeWord i ∧ SameReadPorts i r.ports (encodePorts i)) ∧
  (∀ i p, SameReadPorts i p (encodePorts i) → decode { cmd := encodeWord i, ports := p } = .ok i)

/-- R90: exactly 247 words are reserved, a request decodes exactly when its word is not, and a reserved word at
the head of the script is refused, which is no step and no response. -/
def Obligations.ReservedWordsAreRefused : Prop :=
  ((List.range 256).filter fun n => !CmdWord.wf (BitVec.ofNat 8 n)).length = 247 ∧
  (∀ r : Request, r.wf = true ↔ ∃ i, decode r = .ok i) ∧
  ∀ s r rest, Issues s r rest → ResetClear s → r.wf = false →
    step s = .refused (.reservedCommand r.cmd)

/-- A step in IDLE runs the decoded instruction of the host's next request, which leaves the script (R160; the script
and the reset samples are the model's own, log entries 4 and 5). -/
def Obligations.StepRunsTheDecodedInstruction : Prop :=
  ∀ s r rest i, Issues s r rest → ResetClear s → decode r = .ok i →
    step s = exec i { s with script := rest, resetPin := s.resetPin.tail }

/-- R83: the value of a port the command does not read changes nothing about the step that accepts it. -/
def Obligations.IgnoredPortsChangeNothing : Prop :=
  ∀ s r rest i p, Issues s r rest → ResetClear s → decode r = .ok i → SameReadPorts i r.ports p →
    step { s with script := { cmd := r.cmd, ports := p } :: rest } = step s

/-- A request of the opcode table, presented to `s`, is what the next step runs (log entry 14). -/
def Obligations.PresentedTableWordRunsNext : Prop :=
  ∀ (s : State) w i, decodeTableWord 8 w = some i →
    step (s.withFetchWord 8 w) = exec i { s with phase := .idle }

/-! ### Reset, idling and delivery -/

/-- R240: the state after reset, and the state a step enters when reset is asserted, whatever it was before (the
sampled input is the model's own, log entry 5). -/
def Obligations.ResetLeavesNoValue : Prop :=
  (State.reset.phase = .idle ∧ Dead State.reset ∧ State.reset.builder = none ∧ State.reset.cache = []) ∧
  ∀ s, s.resetPin.head? = some true →
    ∃ t, step s = .next t ∧ t.phase = .idle ∧ Dead t ∧ t.builder = none ∧ t.cache = []

/-- R242: reset during a request abandons it without a response; the host's script, the parameters and the later
samples of the reset input stay (log entry 5). -/
def Obligations.ResetAbandonsTheRequest : Prop :=
  ∀ s, s.resetPin.head? = some true →
    ∃ t, step s = .next t ∧ t.phase = .idle ∧ t.responses = s.responses ∧ t.script = s.script ∧
      t.config = s.config ∧ t.resetPin = s.resetPin.tail

/-- R231, log entry 3: an instance in IDLE with no request does nothing. -/
def Obligations.IdleInstanceDoesNothing : Prop :=
  ∀ s, s.phase = .idle → s.script = [] → ResetClear s → step s = .next { s with resetPin := s.resetPin.tail }

/-- R161 and R41: in DONE the host takes the pair once, the engine is IDLE and every other register dead; an
error's response carries no value (R36, R211). The list of responses is the model's own (log entry 4). -/
def Obligations.DeliveryReturnsToIdle : Prop :=
  ∀ s r, s.phase = .done → ResetClear s → s.rspStatus = some r.status →
    (r.status = .ok → ∃ v, r.value = some v ∧ s.rspValue = some v) → (r.status ≠ .ok → r.value = none) →
    ∃ t, step s = .next t ∧ t.phase = .idle ∧ Dead t ∧ t.builder = none ∧
      t.responses = s.responses ++ [r] ∧ t.script = s.script ∧ t.cache = s.cache ∧ t.config = s.config

/-! ### The invariant -/

/-- The invariant holds after reset. -/
def Obligations.ResetStateMeetsInvariant : Prop := EngineInv State.reset

/-- Every step keeps the invariant, from every state that meets it. The steps of a waiting instance, of the delivery
and of reset, and that the builder's state is absent between steps, are the model's (log entries 3, 4, 5 and 9). -/
def Obligations.StepKeepsInvariant : Prop := ∀ s t, EngineInv s → step s = .next t → EngineInv t

/-- R40: no request can reach a model fault. The delivery and reset are steps by the model's choice (log entries 4
and 5). -/
def Obligations.InvariantRulesOutFaults : Prop := ∀ s f, EngineInv s → step s ≠ .fault f

/-- R220: with the invariant, a step is refused only for a reserved word in IDLE. That a waiting instance has a step,
and that a reserved word refuses the step, are the model's (log entries 3 and 23). -/
def Obligations.OnlyReservedWordsAreRefused : Prop :=
  ∀ s ρ, EngineInv s → step s = .refused ρ →
    ∃ r rest, Issues s r rest ∧ r.wf = false ∧ ρ = .reservedCommand r.cmd

/-- A host whose script holds no reserved word can run for ever: every number of steps ends in a state that meets
the invariant. Once the script is spent the steps are those of a waiting instance, and the host takes each response
at once, in one step: both are the model's choice (log entries 3 and 4). -/
def Obligations.WellFormedScriptsNeverStop : Prop :=
  ∀ n s, EngineInv s → Script.wf s.script = true →
    ∃ t, Host.Core.run Sys2Proof.core n s = .next t ∧ EngineInv t ∧ Script.wf t.script = true

/-- The parameters are never written (log entry 8). -/
def Obligations.StepKeepsTheParameters : Prop := ∀ s t, step s = .next t → t.config = s.config

/-! ### Faults and refusals -/

/-- R40: FINAL and the delivery read only registers that hold a value; otherwise the step is the model fault. -/
def Obligations.UnwrittenRegistersFault : Prop :=
  (∀ s, s.phase = .final → ResetClear s →
    (s.cfgAlgo = none ∨ s.cfgW = none ∨ s.cfgRefout = none ∨ s.cfgX = none ∨ s.reg = none) →
    ∃ r, step s = .fault (.unwritten r)) ∧
  (∀ s, s.phase = .done → ResetClear s → s.rspStatus = none → step s = .fault (.unwritten .rspStatus)) ∧
  (∀ s, s.phase = .done → ResetClear s → s.rspStatus = some .ok → s.rspValue = none →
    step s = .fault (.unwritten .rspValue))

/-- R52: a read of the message outside it is the model fault, in the CONSUME step of both variants that index
MSG. -/
def Obligations.MsgReadOutsideTheMessageFaults : Prop :=
  ∀ s l t r j, s.phase = .consume → ResetClear s → Holds s l →
    l.algo = .optimizedTable ∨ l.algo = .reflectedTable → s.tbl = some t → s.reg = some r →
    s.idx = some j → l.msg.length ≤ j → step s = .fault (.msgReadOutOfRange j)

/-- R245, log entry 13: no instruction is accepted outside IDLE. -/
def Obligations.BusyInstanceAcceptsNothing : Prop :=
  ∀ i s, s.phase ≠ .idle → exec i s = .refused .requestWhileBusy

/-! ### BitReflector -/

/-- R110 and R111, bit by bit: bit `i` of a reflection is bit `n-1-i` of the operand, and nothing stands above. -/
def Obligations.ReflectionReversesBits : Prop :=
  (∀ (b : Byte) i, i < 8 → bitAt (reflect8 b).toNat i = bitAt b.toNat (7 - i)) ∧
  (∀ x n i, i < n → bitAt (reflectW x n) i = bitAt x (n - 1 - i)) ∧
  (∀ x n i, n ≤ i → bitAt (reflectW x n) i = 0)

/-- R115. -/
def Obligations.ReflectionIsAnInvolution : Prop :=
  (∀ b : Byte, reflect8 (reflect8 b) = b) ∧ ∀ x n, x < 2 ^ n → reflectW (reflectW x n) n = x

/-- R116. -/
def Obligations.WidthEightReflectionIsByteReflection : Prop :=
  ∀ b : Byte, reflectW b.toNat 8 = (reflect8 b).toNat

/-- R117. The third law needs no bound on its operands. -/
def Obligations.ReflectedRegisterLaws : Prop :=
  (∀ w r, 8 ≤ w → w % 8 = 0 → r < 2 ^ w →
    reflectW ((r <<< 8) &&& mask w) w = reflectW r w >>> 8 ∧ top8 w r = reflect8 (low8 (reflectW r w))) ∧
  ∀ w a b, reflectW (a ^^^ b) w = reflectW a w ^^^ reflectW b w

/-- R112: RFB's word and its whole next state; nothing but CMD, the response and PHASE changes. -/
def Obligations.RfbReflectsItsByte : Prop :=
  decodeWord 0x10 = .ok .rfb ∧
  ∀ b s, s.phase = .idle →
    exec (.rfb b) s = .next { s with
      cmd := some 0x10, rspValue := some (.byte (reflect8 b)), rspStatus := some .ok, phase := .done }

/-- R113: RFW's word and its whole next state, for every N. -/
def Obligations.RfwReflectsTheLowBits : Prop :=
  decodeWord 0x20 = .ok .rfw ∧
  ∀ x n s, s.phase = .idle →
    exec (.rfw x n) s = .next { s with
      cmd := some 0x20, rspValue := some (.nat (reflectW x n)), rspStatus := some .ok, phase := .done }

/-- R114: RFS's word and its whole next state, for a valid sequence and for one with an invalid element anywhere.
That CMD is written on the error too is the model's reading, log entry 2. -/
def Obligations.RfsReflectsOrRejectsItsSequence : Prop :=
  decodeWord 0x30 = .ok .rfs ∧
  (∀ m s, s.phase = .idle →
    exec (.rfs (byteElems m)) s = .next { s with
      cmd := some 0x30, msg := some m, rspValue := some (.bytes (m.map reflect8)), rspStatus := some .ok
      phase := .done }) ∧
  (∀ seq s, s.phase = .idle → HasInvalidElem seq →
    exec (.rfs seq) s = .next { s with
      cmd := some 0x30, rspStatus := some (.error .invalidMessageElement), rspValue := none, phase := .done })

/-! ### TableBuilder -/

/-- R136: entry 0 is 0, every entry fits in `w` bits, the table is linear, and entry 1 is the polynomial. -/
def Obligations.DirectTableLaws : Prop :=
  ∀ w p, 8 ≤ w → w % 8 = 0 → p < 2 ^ w →
    tblRead (directTable w p) 0 = 0 ∧ (∀ c, tblRead (directTable w p) c < 2 ^ w) ∧
    (∀ a b, tblRead (directTable w p) (a ^^^ b) = tblRead (directTable w p) a ^^^ tblRead (directTable w p) b) ∧
    tblRead (directTable w p) 1 = p

/-- R135: with `G = x^w + P`, a step multiplies by `x` modulo `G`, and entry `c` is `c·x^w mod G`. -/
def Obligations.TableEntriesAreRemainders : Prop :=
  ∀ w p, 8 ≤ w → w % 8 = 0 → p < 2 ^ w →
    (∀ r, r < 2 ^ w →
      polyOf (step1 w p r) = (polyOf r * Polynomial.X) %ₘ (Polynomial.X ^ w + polyOf p)) ∧
    ∀ c : Byte, polyOf (tblRead (directTable w p) c) =
      (polyOf c.toNat * Polynomial.X ^ w) %ₘ (Polynomial.X ^ w + polyOf p)

/-- R138: entry `reflect8(i)` of the reflected table is the reflection of entry `i` of the direct one, so entry 0
is 0, entry 0x80 is the reflected polynomial (R139), and every entry fits in `w` bits. -/
def Obligations.ReflectedTableEntries : Prop :=
  ∀ w p, 8 ≤ w → w % 8 = 0 → p < 2 ^ w →
    (∀ i : Byte, tblRead (reflectedTable w p) (reflect8 i) = reflectW (tblRead (directTable w p) i) w) ∧
    tblRead (reflectedTable w p) 0 = 0 ∧ tblRead (reflectedTable w p) 0x80 = reflectW p w ∧
    ∀ j, tblRead (reflectedTable w p) j < 2 ^ w

/-- R143: the chain-closure method makes at most 2040 shift-and-XOR steps, and meets its bound at `P = 0`. -/
def Obligations.ChainClosureStepBound : Prop :=
  (∀ w p, 8 ≤ w → w % 8 = 0 → p < 2 ^ w → chainStepCount w p ≤ 2040) ∧
  ∀ w, 8 ≤ w → w % 8 = 0 → chainStepCount w 0 = 2040

/-- R137, R140: BLD.D's response and TBL are the direct table, whatever the building method and the cache. -/
def Obligations.BldDBuildsTheDirectTable : Prop :=
  ∀ s poly w, s.phase = .idle → CacheOk s → LegalWidth s.config w →
    ∃ t tab, exec (.bldD poly (some w)) s = .next t ∧ t.cmd = some 0x40 ∧ t.cfgW = some w ∧
      t.cfgP = some (poly &&& mask w) ∧ t.tbl = some tab ∧ t.rspValue = some (.table tab) ∧
      t.rspStatus = some .ok ∧ t.phase = .done ∧
      ∀ c : Byte, tblRead tab c = (step1 w (poly &&& mask w))^[8] (c.toNat <<< (w - 8))

/-- R139, R140: BLD.R's response and TBL are the reflected table. -/
def Obligations.BldRBuildsTheReflectedTable : Prop :=
  ∀ s poly w, s.phase = .idle → CacheOk s → LegalWidth s.config w →
    ∃ t tab, exec (.bldR poly (some w)) s = .next t ∧ t.cmd = some 0x41 ∧ t.cfgW = some w ∧
      t.cfgP = some (poly &&& mask w) ∧ t.tbl = some tab ∧ t.rspValue = some (.table tab) ∧
      t.rspStatus = some .ok ∧ t.phase = .done ∧
      ∀ c : Byte, tblRead tab (reflect8 c) =
        reflectW ((step1 w (poly &&& mask w))^[8] (c.toNat <<< (w - 8))) w

/-- R131, R214: a build with an illegal width ends with InvalidTableRequest, and nothing but CMD, the status and
PHASE is written (RSP.VALUE holds no value, R216). That CMD is written too is log entry 2. -/
def Obligations.BuildWithIllegalWidthIsRejected : Prop :=
  ∀ s poly v, s.phase = .idle → IllegalWidth s.config v →
    exec (.bldD poly v) s = .next { s with
      cmd := some 0x40, rspStatus := some (.error .invalidTableRequest), rspValue := none, phase := .done } ∧
    exec (.bldR poly v) s = .next { s with
      cmd := some 0x41, rspStatus := some (.error .invalidTableRequest), rspValue := none, phase := .done }

/-- The frame of BLD.D and BLD.R: the other registers, the host's side and the parameters stay; the cache only
grows, and not at all in a realisation without one (R58). That CFG.I, CFG.X, CFG.REFIN, CFG.REFOUT and CFG.ALGO
stay is the model's reading of R137 and R139 beside R22, log entry 21. -/
def Obligations.BuildFrame : Prop :=
  ∀ s t poly v, exec (.bldD poly v) s = .next t ∨ exec (.bldR poly v) s = .next t →
    t.cfgI = s.cfgI ∧ t.cfgX = s.cfgX ∧ t.cfgRefin = s.cfgRefin ∧ t.cfgRefout = s.cfgRefout ∧
    t.cfgAlgo = s.cfgAlgo ∧ t.msg = s.msg ∧ t.idx = s.idx ∧ t.bitpos = s.bitpos ∧ t.reg = s.reg ∧
    t.config = s.config ∧ t.script = s.script ∧ t.responses = s.responses ∧ t.resetPin = s.resetPin ∧
    (∃ l, t.cache = s.cache ++ l) ∧ (s.config.tableCache = .uncached → t.cache = s.cache)

/-- R58, R68, R243: a cached table is never changed or dropped except by reset, and a realisation without a cache
keeps none. -/
def Obligations.CacheEntriesAreNeverChanged : Prop :=
  ∀ s t, step s = .next t →
    (ResetClear s → ∃ l, t.cache = s.cache ++ l) ∧ (s.resetPin.head? = some true → t.cache = []) ∧
    (s.config.tableCache = .uncached → ResetClear s → t.cache = s.cache)

/-! ### CrcEngine: accepting -/

/-- R162: the whole next state of the four CRC commands for a legal width and a valid message. -/
def Obligations.CrcRequestsAreLatched : Prop :=
  ∀ s o w m, s.phase = .idle → LegalWidth s.config w → o.width = some (w : Int) → o.msg = byteElems m →
    exec (.crcBS o) s = .next (crcAccepted 0x80 .bitSerial o w m s) ∧
    exec (.crcTB o) s = .next (crcAccepted 0x81 .table o w m s) ∧
    exec (.crcOT o) s = .next (crcAccepted 0x82 .optimizedTable o w m s) ∧
    exec (.crcRT o) s = .next (crcAccepted 0x83 .reflectedTable o w m s)

/-- R212 and R215: an illegal width is InvalidWidth, whatever the message holds. That CMD is written too is log
entry 2. -/
def Obligations.CrcIllegalWidthIsRejectedFirst : Prop :=
  ∀ s o, s.phase = .idle → IllegalWidth s.config o.width →
    exec (.crcBS o) s = .next (crcRejected 0x80 .invalidWidth s) ∧
    exec (.crcTB o) s = .next (crcRejected 0x81 .invalidWidth s) ∧
    exec (.crcOT o) s = .next (crcRejected 0x82 .invalidWidth s) ∧
    exec (.crcRT o) s = .next (crcRejected 0x83 .invalidWidth s)

/-- R213: with a legal width, one invalid element anywhere is InvalidMessageElement. That CMD is written too is log
entry 2. -/
def Obligations.CrcInvalidElementIsRejected : Prop :=
  ∀ s o w, s.phase = .idle → LegalWidth s.config w → o.width = some (w : Int) → HasInvalidElem o.msg →
    exec (.crcBS o) s = .next (crcRejected 0x80 .invalidMessageElement s) ∧
    exec (.crcTB o) s = .next (crcRejected 0x81 .invalidMessageElement s) ∧
    exec (.crcOT o) s = .next (crcRejected 0x82 .invalidMessageElement s) ∧
    exec (.crcRT o) s = .next (crcRejected 0x83 .invalidMessageElement s)

/-! ### CrcEngine: the sequencer -/

/-- R170: INIT of BitSerial, the preload; FINAL comes next exactly when the message is empty. -/
def Obligations.InitBitSerialPreloads : Prop :=
  ∀ s l, s.phase = .init → ResetClear s → Holds s l → l.algo = .bitSerial →
    step s = .next { s with
      reg := some (l.cfg.i ^^^ be ((augmented l.cfg.refin l.cfg.w l.msg).take (l.cfg.w / 8)))
      idx := some (l.cfg.w / 8), bitpos := some 7
      phase := if l.msg = [] then .final else .consume
      resetPin := s.resetPin.tail }

/-- R180, R185, R190: INIT of the table variants builds its table, sets the register and the index, and goes to
FINAL exactly when the message is empty. That BITPOS stays is the model's reading of R22 and R31, log entry 17. -/
def Obligations.InitTableVariantsBuildAndLoad : Prop :=
  ∀ s l, s.phase = .init → ResetClear s → Holds s l → LegalCfg s.config l.cfg → CacheOk s →
    l.algo ≠ .bitSerial →
    ∃ t, step s = .next t ∧ t.phase = (if l.msg = [] then .final else .consume) ∧
      t.bitpos = s.bitpos ∧
      (l.algo = .table →
        t.tbl = some (directTable l.cfg.w l.cfg.p) ∧ t.idx = some (l.cfg.w / 8) ∧
        t.reg = some (l.cfg.i ^^^ be ((augmented l.cfg.refin l.cfg.w l.msg).take (l.cfg.w / 8)))) ∧
      (l.algo = .optimizedTable →
        t.tbl = some (directTable l.cfg.w l.cfg.p) ∧ t.idx = some 0 ∧ t.reg = some l.cfg.i) ∧
      (l.algo = .reflectedTable →
        t.tbl = some (reflectedTable l.cfg.w l.cfg.p) ∧ t.idx = some 0 ∧
        t.reg = some (reflectW l.cfg.i l.cfg.w))

/-- R172: CONSUME of BitSerial takes one bit, bit BITPOS of the byte at IDX, and moves on. -/
def Obligations.ConsumeBitSerialTakesOneBit : Prop :=
  ∀ s l k a r (b : Fin 8), s.phase = .consume → ResetClear s → Holds s l → l.algo = .bitSerial →
    s.idx = some k → (augmented l.cfg.refin l.cfg.w l.msg)[k]? = some a → s.bitpos = some b →
    s.reg = some r →
    step s = .next { s with
      reg := some (bitstep l.cfg.w l.cfg.p r (bitAt a.toNat b.val))
      bitpos := some (if b = 0 then 7 else b - 1)
      idx := some (if b = 0 then k + 1 else k)
      phase := if b = 0 ∧ k + 1 = (augmented l.cfg.refin l.cfg.w l.msg).length then .final else .consume
      resetPin := s.resetPin.tail }

/-- R181: CONSUME of Table takes one byte of the augmented stream. That BITPOS stays is the model's reading of R22
and R31, log entry 17. -/
def Obligations.ConsumeTableTakesOneByte : Prop :=
  ∀ s l k a r tab, s.phase = .consume → ResetClear s → Holds s l → l.algo = .table →
    s.idx = some k → (augmented l.cfg.refin l.cfg.w l.msg)[k]? = some a → s.reg = some r → s.tbl = some tab →
    step s = .next { s with
      reg := some ((((r <<< 8) ||| a.toNat) &&& mask l.cfg.w) ^^^ tblRead tab (top8 l.cfg.w r))
      idx := some (k + 1)
      phase := if k + 1 = (augmented l.cfg.refin l.cfg.w l.msg).length then .final else .consume
      resetPin := s.resetPin.tail }

/-- R186: CONSUME of OptimizedTable takes one byte of the effective message. That BITPOS stays is the model's reading
of R22 and R31, log entry 17. -/
def Obligations.ConsumeOptimizedTakesOneByte : Prop :=
  ∀ s l k b r tab, s.phase = .consume → ResetClear s → Holds s l → l.algo = .optimizedTable →
    s.idx = some k → l.msg[k]? = some b → s.reg = some r → s.tbl = some tab →
    step s = .next { s with
      reg := some (((r <<< 8) &&& mask l.cfg.w) ^^^
        tblRead tab (top8 l.cfg.w r ^^^ (if l.cfg.refin then reflect8 b else b)))
      idx := some (k + 1)
      phase := if k + 1 = l.msg.length then .final else .consume
      resetPin := s.resetPin.tail }

/-- R192: CONSUME of ReflectedTable takes one message byte, as it stands when REFIN = 1. That BITPOS stays is the
model's reading of R22 and R31, log entry 17. -/
def Obligations.ConsumeReflectedTakesOneByte : Prop :=
  ∀ s l k b r tab, s.phase = .consume → ResetClear s → Holds s l → l.algo = .reflectedTable →
    s.idx = some k → l.msg[k]? = some b → s.reg = some r → s.tbl = some tab →
    step s = .next { s with
      reg := some ((r >>> 8) ^^^
        tblRead tab (low8 (r ^^^ (if l.cfg.refin then b else reflect8 b).toNat)))
      idx := some (k + 1)
      phase := if k + 1 = l.msg.length then .final else .consume
      resetPin := s.resetPin.tail }

/-- R200, R201: FINAL's whole next state; ReflectedTable reflects when REFOUT = 0, the others when it is 1.
That IDX and BITPOS stay is the model's reading of R22 and R31, log entry 17. -/
def Obligations.FinalFormsTheResponse : Prop :=
  ∀ s l r, s.phase = .final → ResetClear s → Holds s l → s.reg = some r →
    step s = .next { s with
      rspValue := some (.nat ((if l.cfg.refout = (l.algo != .reflectedTable) then reflectW r l.cfg.w else r)
        ^^^ l.cfg.x))
      rspStatus := some .ok, phase := .done, resetPin := s.resetPin.tail }

/-- R23, R24, R28, R34: no step after the accept step writes CMD, CFG.* or MSG, and no CONSUME or FINAL step
writes TBL or the cache. That IDX and BITPOS stay in FINAL is the model's reading of R22 and R31, log entry 17. -/
def Obligations.LatchedRequestIsImmutable : Prop :=
  ∀ s t, ResetClear s → s.phase = .init ∨ s.phase = .consume ∨ s.phase = .final → step s = .next t →
    t.cmd = s.cmd ∧ t.cfgW = s.cfgW ∧ t.cfgP = s.cfgP ∧ t.cfgI = s.cfgI ∧ t.cfgX = s.cfgX ∧
    t.cfgRefin = s.cfgRefin ∧ t.cfgRefout = s.cfgRefout ∧ t.cfgAlgo = s.cfgAlgo ∧ t.msg = s.msg ∧
    t.script = s.script ∧ t.responses = s.responses ∧
    (s.phase ≠ .init → t.tbl = s.tbl ∧ t.cache = s.cache ∧ t.builder = s.builder) ∧
    (s.phase ≠ .final → t.rspStatus = s.rspStatus ∧ t.rspValue = s.rspValue) ∧
    (s.phase = .final → t.idx = s.idx ∧ t.bitpos = s.bitpos ∧ t.reg = s.reg)

/-! ### CrcEngine: whole requests -/

/-- R173, R249: CRC.BS responds after 8n+3 steps with its one-function summary. The script,
the responses and the reset samples are the model's own (log entries 4 and 5). -/
def Obligations.CrcBitSerialRunsToItsValue : Prop :=
  ∀ s r rest o w m, Issues s r rest → decode r = .ok (.crcBS o) → LegalWidth s.config w →
    o.width = some (w : Int) → o.msg = byteElems m → Quiet (8 * m.length + 3) s →
    RunsTo (8 * m.length + 3) s rest (crcBitSerial (crcCfgOf o w) m)

/-- R182, R249: CRC.TB responds after n+3 steps with its one-function summary. The script,
the responses and the reset samples are the model's own (log entries 4 and 5). -/
def Obligations.CrcTableRunsToItsValue : Prop :=
  ∀ s r rest o w m, Issues s r rest → decode r = .ok (.crcTB o) → CacheOk s → LegalWidth s.config w →
    o.width = some (w : Int) → o.msg = byteElems m → Quiet (m.length + 3) s →
    RunsTo (m.length + 3) s rest (crcTable (crcCfgOf o w) m)

/-- R187, R249: CRC.OT responds after n+3 steps with its one-function summary. The script,
the responses and the reset samples are the model's own (log entries 4 and 5). -/
def Obligations.CrcOptimizedRunsToItsValue : Prop :=
  ∀ s r rest o w m, Issues s r rest → decode r = .ok (.crcOT o) → CacheOk s → LegalWidth s.config w →
    o.width = some (w : Int) → o.msg = byteElems m → Quiet (m.length + 3) s →
    RunsTo (m.length + 3) s rest (crcOptimized (crcCfgOf o w) m)

/-- R193, R249: CRC.RT responds after n+3 steps with its one-function summary. The script,
the responses and the reset samples are the model's own (log entries 4 and 5). -/
def Obligations.CrcReflectedRunsToItsValue : Prop :=
  ∀ s r rest o w m, Issues s r rest → decode r = .ok (.crcRT o) → CacheOk s → LegalWidth s.config w →
    o.width = some (w : Int) → o.msg = byteElems m → Quiet (m.length + 3) s →
    RunsTo (m.length + 3) s rest (crcReflected (crcCfgOf o w) m)

/-- R202: eight bit steps are one step of Table, and one byte of `crc_ref` is one step of OptimizedTable. -/
def Obligations.ByteStepsEqualBitSteps : Prop :=
  ∀ w p r (a : Byte), 8 ≤ w → w % 8 = 0 → p < 2 ^ w → r < 2 ^ w →
    (bitsDown a).foldl (bitstep w p) r = tableStep w (directTable w p) r a ∧
    crcRefByte w p r a = optimizedStep w (directTable w p) r a

/-- R191: the register of ReflectedTable is the reflection of OptimizedTable's after the same bytes. -/
def Obligations.ReflectedRegisterMirrorsOptimized : Prop :=
  ∀ c l, 8 ≤ c.w → c.w % 8 = 0 → c.p < 2 ^ c.w → c.i < 2 ^ c.w →
    reflectedRegister c l = reflectW (optimizedRegister c l) c.w

/-- R164, R202: the one-function summaries of the four commands are the reference function. -/
def Obligations.SummaryFunctionsAreTheReference : Prop :=
  ∀ c m, 8 ≤ c.w → c.w % 8 = 0 → c.p < 2 ^ c.w → c.i < 2 ^ c.w →
    ∀ algo, crcValue algo c m = crcRef c m

/-- R167: whichever of the four commands a validated request carries, the response's value is `crc_ref()` of its
operands. -/
def Obligations.FourVariantsAgree : Prop :=
  ∀ algo s r rest o w m, Issues s r rest → decode r = .ok (crcInstr algo o) → CacheOk s →
    LegalWidth s.config w → o.width = some (w : Int) → o.msg = byteElems m → Quiet (8 * m.length + 3) s →
    ∃ n, n ≤ 8 * m.length + 3 ∧ RunsTo n s rest (crcRef (crcCfgOf o w) m)

/-- R168: the response to an empty message, which takes 3 steps whatever the command, and the bound of every
value. -/
def Obligations.EmptyMessageValueAndBound : Prop :=
  (∀ algo s r rest o w, Issues s r rest → decode r = .ok (crcInstr algo o) → CacheOk s →
    LegalWidth s.config w → o.width = some (w : Int) → o.msg = [] → Quiet 3 s →
    RunsTo 3 s rest
      ((if o.refout then reflectW (o.init &&& mask w) w else o.init &&& mask w) ^^^ (o.xorout &&& mask w))) ∧
  ∀ algo c m, 8 ≤ c.w → c.w % 8 = 0 → c.p < 2 ^ c.w → c.i < 2 ^ c.w → c.x < 2 ^ c.w →
    crcValue algo c m < 2 ^ c.w

/-- R205: the value is affine in the message. -/
def Obligations.ValueIsAffineInTheMessage : Prop :=
  ∀ c (m₁ m₂ : List Byte), 8 ≤ c.w → c.w % 8 = 0 → m₁.length = m₂.length →
    crcRef c (List.zipWith (· ^^^ ·) m₁ m₂) = crcRef c m₁ ^^^ crcRef c m₂ ^^^ crcRef c (zeros m₁.length)

/-- R203: starting from `init` and shifting in all of the augmented stream gives the CRC of another initial value,
`init·x^w mod G` in place of `init`; for CRC-16/CCITT that is 0xE5CC where 0x29B1 is right. -/
def Obligations.LiteralReadingMultipliesInit : Prop :=
  (∀ c m, 8 ≤ c.w → c.w % 8 = 0 → c.p < 2 ^ c.w → c.i < 2 ^ c.w →
    crcLiteralReading c m = crcRef { c with i := (step1 c.w c.p)^[c.w] c.i } m) ∧
  crcLiteralReading ccittCfg [0x31, 0x32, 0x33, 0x34, 0x35, 0x36, 0x37, 0x38, 0x39] = 0xE5CC ∧
  crcBitSerial ccittCfg [0x31, 0x32, 0x33, 0x34, 0x35, 0x36, 0x37, 0x38, 0x39] = 0x29B1

/-- R8, R58, R161, R248: for a request that is not reserved there is ONE response, whatever the state of the
instance, its cache and its building method; it is taken within 8n+4 steps, and the instance is IDLE with every
other register dead. That the host takes the response at the first step in DONE, and so the bound on the taking
(R161 and R248 bound DONE alone), is the model's choice, log entry 4. -/
def Obligations.ResponseDependsOnTheRequestAlone : Prop :=
  ∀ (wMax : Option Nat) (r : Request), r.wf = true →
    ∃ ρ : Response, ∀ s rest, s.config.wMax = wMax → CacheOk s → Issues s r rest →
      Quiet (8 * r.ports.msg.length + 4) s →
      ∃ n t, n ≤ 8 * r.ports.msg.length + 4 ∧ Host.Core.run Sys2Proof.core n s = .next t ∧
        t.phase = .idle ∧ Dead t ∧ t.script = rest ∧ t.responses = s.responses ++ [ρ]
end

