-- ==== Sys2Proof/Laws/Bits.lean ====
section
/-!
SUPPORT. What the bit operations do, bit by bit, and the laws of the shift-and-XOR step that the table builder
rests on (spec/41_table_builder.md R132, R142).
-/

namespace Sys2Proof.Machine

/-! ### Masks, bits and fields -/

theorem mask_eq (w : Nat) : mask w = 2 ^ w - 1 := rfl

theorem and_mask (v w : Nat) : v &&& mask w = v % 2 ^ w := Nat.and_two_pow_sub_one_eq_mod v w

theorem and_mask_lt (v w : Nat) : v &&& mask w < 2 ^ w := by
  rw [and_mask]; exact Nat.mod_lt _ (Nat.two_pow_pos w)

theorem and_mask_of_lt {v w : Nat} (h : v < 2 ^ w) : v &&& mask w = v := by
  rw [and_mask, Nat.mod_eq_of_lt h]

@[simp] theorem testBit_and_mask (v w i : Nat) :
    (v &&& mask w).testBit i = (decide (i < w) && v.testBit i) := by
  rw [and_mask, Nat.testBit_mod_two_pow]

theorem bitAt_eq (v i : Nat) : bitAt v i = (v.testBit i).toNat := by
  simp only [bitAt, Nat.testBit, Nat.and_one_is_mod, Nat.one_and_eq_mod_two]
  rcases Nat.mod_two_eq_zero_or_one (v >>> i) with h | h <;> simp [h]

theorem bitAt_eq_one (v i : Nat) : bitAt v i = 1 ↔ v.testBit i = true := by
  rw [bitAt_eq]; cases v.testBit i <;> simp

theorem msb_eq_one (w r : Nat) : msb w r = 1 ↔ r.testBit (w - 1) = true := bitAt_eq_one r (w - 1)

theorem top8_toNat (w r : Nat) (hw : 8 ≤ w) : (top8 w r).toNat = (r >>> (w - 8)) % 2 ^ 8 := by
  have h : w - 1 - (w - 8) + 1 = 8 := by omega
  rw [top8, field, h, Nat.and_two_pow_sub_one_eq_mod, BitVec.toNat_ofNat, Nat.mod_mod]

theorem top8_of_lt {w r : Nat} (hw : 8 ≤ w) (hr : r < 2 ^ w) : (top8 w r).toNat = r >>> (w - 8) := by
  rw [top8_toNat w r hw, Nat.mod_eq_of_lt]
  rw [Nat.shiftRight_eq_div_pow, Nat.div_lt_iff_lt_mul (Nat.two_pow_pos _), ← Nat.pow_add]
  have h : 8 + (w - 8) = w := by omega
  rwa [h]

/-! ### Reflection -/

theorem reverseBits_succ (v n : Nat) :
    reverseBits v (n + 1) = 2 * reverseBits v n + bitAt v n := by
  have h : ∀ i ∈ List.range n, bitAt v i * 2 ^ (n + 1 - 1 - i) = 2 * (bitAt v i * 2 ^ (n - 1 - i)) := by
    intro i hi
    have hlt : i < n := List.mem_range.mp hi
    have e : n + 1 - 1 - i = (n - 1 - i) + 1 := by omega
    rw [e, Nat.pow_succ]; ring
  rw [reverseBits, reverseBits, List.range_succ, List.map_append, List.sum_append, List.map_congr_left h,
    List.sum_map_mul_left]
  simp

/-- Bit `j` of the reversal is bit `n-1-j` (R110, R111). -/
theorem testBit_reverseBits (v n j : Nat) :
    (reverseBits v n).testBit j = (decide (j < n) && v.testBit (n - 1 - j)) := by
  induction n generalizing j with
  | zero => simp [reverseBits]
  | succ n ih =>
    rw [reverseBits_succ, bitAt_eq]
    cases j with
    | zero => cases h : v.testBit n <;> simp [Nat.testBit_zero, h]
    | succ j =>
      have e : (2 * reverseBits v n + (v.testBit n).toNat) / 2 = reverseBits v n := by
        cases v.testBit n <;> (simp; try omega)
      rw [Nat.testBit_succ, e, ih]
      have e' : n + 1 - 1 - (j + 1) = n - 1 - j := by omega
      rw [e']
      simp

@[simp] theorem testBit_reflectW (x n j : Nat) :
    (reflectW x n).testBit j = (decide (j < n) && x.testBit (n - 1 - j)) := by
  rw [reflectW, testBit_reverseBits, testBit_and_mask]
  by_cases h : j < n
  · have : n - 1 - j < n := by omega
    simp [h, this]
  · simp [h]

theorem reflectW_lt (x n : Nat) : reflectW x n < 2 ^ n := by
  apply Nat.lt_pow_two_of_testBit
  intro i hi
  simp [Nat.not_lt.mpr hi]

/-! ### The shift-and-XOR step -/

theorem step1_eq (w p r : Nat) :
    step1 w p r = ((r <<< 1) &&& mask w) ^^^ (if r.testBit (w - 1) then p else 0) := by
  by_cases h : r.testBit (w - 1) = true
  · simp [step1, (msb_eq_one w r).mpr h, h]
  · have h' : ¬ msb w r = 1 := fun e => h ((msb_eq_one w r).mp e)
    simp [step1, h', h]

theorem step1_lt {w p r : Nat} (hp : p < 2 ^ w) : step1 w p r < 2 ^ w := by
  rw [step1_eq]
  apply Nat.xor_lt_two_pow (and_mask_lt _ _)
  split
  · exact hp
  · exact Nat.two_pow_pos w

theorem step1_xor (w p a b : Nat) : step1 w p (a ^^^ b) = step1 w p a ^^^ step1 w p b := by
  have hs : ((a ^^^ b) <<< 1) &&& mask w = ((a <<< 1) &&& mask w) ^^^ ((b <<< 1) &&& mask w) := by
    rw [Nat.shiftLeft_xor_distrib, Nat.and_xor_distrib_right]
  rw [step1_eq, step1_eq, step1_eq, hs, Nat.testBit_xor]
  cases a.testBit (w - 1) <;> cases b.testBit (w - 1) <;>
    simp [Nat.xor_comm, Nat.xor_left_comm]

theorem step1_iterate_xor (w p k a b : Nat) :
    (step1 w p)^[k] (a ^^^ b) = (step1 w p)^[k] a ^^^ (step1 w p)^[k] b := by
  induction k generalizing a b with
  | zero => rfl
  | succ k ih => rw [Function.iterate_succ_apply, Function.iterate_succ_apply, Function.iterate_succ_apply,
      step1_xor, ih]

theorem step1_iterate_lt {w p r : Nat} (hp : p < 2 ^ w) (hr : r < 2 ^ w) (k : Nat) :
    (step1 w p)^[k] r < 2 ^ w := by
  cases k with
  | zero => exact hr
  | succ k => rw [Function.iterate_succ_apply']; exact step1_lt hp

theorem step1_of_lt {w p r : Nat} (hw : 1 ≤ w) (hr : r < 2 ^ (w - 1)) : step1 w p r = r <<< 1 := by
  have hb : r.testBit (w - 1) = false := Nat.testBit_lt_two_pow hr
  have hl : r <<< 1 < 2 ^ w := by
    have : 2 ^ w = 2 ^ (w - 1) * 2 := by rw [← Nat.pow_succ]; congr 1; omega
    rw [Nat.shiftLeft_eq]; omega
  rw [step1_eq, hb, and_mask_of_lt hl]
  simp

/-- `k` steps on a register whose top `k` bits are 0 only shift it. -/
theorem step1_iterate_of_lt {w p : Nat} (k : Nat) {r : Nat} (hk : k ≤ w) (hr : r < 2 ^ (w - k)) :
    (step1 w p)^[k] r = r <<< k := by
  induction k generalizing r with
  | zero => simp
  | succ k ih =>
    have h1 : r < 2 ^ (w - 1) := Nat.lt_of_lt_of_le hr (Nat.pow_le_pow_right (by decide) (by omega))
    have h2 : r <<< 1 < 2 ^ (w - k) := by
      have : 2 ^ (w - k) = 2 ^ (w - (k + 1)) * 2 := by rw [← Nat.pow_succ]; congr 1; omega
      rw [Nat.shiftLeft_eq]; omega
    rw [Function.iterate_succ_apply, step1_of_lt (by omega) h1, ih (by omega) h2, ← Nat.shiftLeft_add,
      Nat.add_comm]

/-- A register is its top byte and the rest. -/
theorem register_split {w r : Nat} (hw : 8 ≤ w) (hr : r < 2 ^ w) :
    r = ((top8 w r).toNat <<< (w - 8)) ^^^ (r % 2 ^ (w - 8)) := by
  apply Nat.eq_of_testBit_eq
  intro i
  rw [top8_of_lt hw hr, Nat.testBit_xor, Nat.testBit_shiftLeft, Nat.testBit_shiftRight, Nat.testBit_mod_two_pow]
  by_cases h : i < w - 8
  · simp [h, Nat.not_le.mpr h]
  · have h' : w - 8 ≤ i := Nat.not_lt.mp h
    simp [h, h']

/-- Eight steps shift the register out by a byte and XOR in the entry of the byte that left it (R142). -/
theorem step1_iterate_eight {w p r : Nat} (hw : 8 ≤ w) (hr : r < 2 ^ w) :
    (step1 w p)^[8] r = ((r <<< 8) &&& mask w) ^^^ entry w p (top8 w r) := by
  have hlow : r % 2 ^ (w - 8) < 2 ^ (w - 8) := Nat.mod_lt _ (Nat.two_pow_pos _)
  have hshift : (r % 2 ^ (w - 8)) <<< 8 = (r <<< 8) &&& mask w := by
    apply Nat.eq_of_testBit_eq
    intro i
    rw [testBit_and_mask, Nat.testBit_shiftLeft, Nat.testBit_shiftLeft, Nat.testBit_mod_two_pow]
    by_cases h8 : 8 ≤ i
    · have e : (i - 8 < w - 8) ↔ (i < w) := by omega
      by_cases hi : i < w <;> simp [h8, hi, e]
    · simp [h8]
  conv_lhs => rw [register_split hw hr]
  rw [step1_iterate_xor, step1_iterate_of_lt 8 hw hlow, hshift, Nat.xor_comm]
  rfl

/-- An entry of the direct table fits in the register. -/
theorem entry_lt {w p : Nat} (hp : p < 2 ^ w) (c : Byte) : entry w p c < 2 ^ w := by
  rw [entry, Function.iterate_succ_apply']; exact step1_lt hp

end Sys2Proof.Machine
end

