-- ==== Sys2Proof/Laws/Chain.lean ====
section
/-!
SUPPORT. The chain-closure builder (spec/41_table_builder.md R141) computes the direct table: when its outer loop
has ended every slot is Resolved with the entry of its control byte.
-/

namespace Sys2Proof.Machine

/-! ### Slots -/

theorem slotAt_setSlot (slot : Vector SlotStatus 256) (c d : Byte) (v : SlotStatus) :
    slotAt (setSlot slot c v) d = if d = c then v else slotAt slot d := by
  rw [slotAt, setSlot, slotAt, Vector.getElem_set]
  by_cases h : d = c
  · simp [h]
  · have h' : ¬ c.toNat = d.toNat := fun e => h (BitVec.eq_of_toNat_eq e.symm)
    simp [h, h']

/-- Every Resolved slot holds the entry of its control byte (the invariant of R142). -/
def SlotsOk (w p : Nat) (slot : Vector SlotStatus 256) : Prop :=
  ∀ c v, slotAt slot c = .resolved v → v = entry w p c

theorem slotAt_resolveSnapshot (w : Nat) (slot : Vector SlotStatus 256) (cr s : Nat) (c : Byte) :
    slotAt (resolveSnapshot w slot cr s) c = slotAt slot c ∨
    (c = top8 w s ∧ slotAt (resolveSnapshot w slot cr s) c = .resolved (cr ^^^ ((s <<< 8) &&& mask w))) := by
  unfold resolveSnapshot
  split
  · exact .inl rfl
  · rw [slotAt_setSlot]
    by_cases h : c = top8 w s
    · simp [h]
    · simp [h]

/-- The slot of the snapshot is Resolved afterwards. -/
theorem resolveSnapshot_resolves (w : Nat) (slot : Vector SlotStatus 256) (cr s : Nat) :
    ∃ v, slotAt (resolveSnapshot w slot cr s) (top8 w s) = .resolved v := by
  unfold resolveSnapshot
  split
  · exact ⟨_, by assumption⟩
  · exact ⟨_, by rw [slotAt_setSlot, if_pos rfl]⟩

/-! ### One chain -/

/-- What holds of a running chain that began at the register `r0`. -/
structure ChainOk (w p r0 : Nat) (slot : Vector SlotStatus 256) (ch : Chain) : Prop where
  cr : ch.cr = (step1 w p)^[ch.k] r0
  snap : ∀ j, j ≤ 8 → j ≤ ch.k → ch.snap[j]? = some ((step1 w p)^[ch.k - j] r0)
  len : ch.snap.length = min (ch.k + 1) 9
  notPast : ch.k ≤ ch.chainEnd
  near : ch.chainEnd ≤ ch.k + 8
  first : 8 ≤ ch.chainEnd
  values : SlotsOk w p slot
  pending : ∀ c, slotAt slot c = .inProgress →
    ch.k < ch.chainEnd ∧ c = top8 w ((step1 w p)^[ch.chainEnd - 8] r0)

/-- A slot that is not Unresolved stays so. -/
def Keeps (slot slot' : Vector SlotStatus 256) : Prop :=
  ∀ c, slotAt slot c ≠ .unresolved → slotAt slot' c ≠ .unresolved

/-- The number of Unresolved slots. -/
def unresolvedCount (slot : Vector SlotStatus 256) : Nat :=
  (Finset.univ.filter fun c : Fin 256 => slotAt slot (BitVec.ofFin c) = .unresolved).card

theorem unresolvedCount_le_of_keeps {slot slot' : Vector SlotStatus 256} (h : Keeps slot slot') :
    unresolvedCount slot' ≤ unresolvedCount slot := by
  apply Finset.card_le_card
  intro c hc
  simp only [Finset.mem_filter, Finset.mem_univ, true_and] at hc ⊢
  by_contra hne
  exact h _ hne hc

theorem unresolvedCount_lt {slot slot' : Vector SlotStatus 256} (h : Keeps slot slot') {c : Byte}
    (hc : slotAt slot c = .unresolved) (hc' : slotAt slot' c ≠ .unresolved) :
    unresolvedCount slot' < unresolvedCount slot := by
  apply Finset.card_lt_card
  refine ⟨fun d hd => ?_, fun hsub => ?_⟩
  · simp only [Finset.mem_filter, Finset.mem_univ, true_and] at hd ⊢
    by_contra hne
    exact h _ hne hd
  · have hmem : c.toFin ∈ Finset.univ.filter fun c : Fin 256 => slotAt slot (BitVec.ofFin c) = .unresolved := by
      simp only [Finset.mem_filter, Finset.mem_univ, true_and]; exact hc
    have := hsub hmem
    simp only [Finset.mem_filter, Finset.mem_univ, true_and] at this
    exact hc' this

/-- What the slots are after the oldest snapshot has been resolved. -/
theorem resolveOldest_spec {w p r0 : Nat} {slot : Vector SlotStatus 256} {ch : Chain} (hw : 8 ≤ w)
    (hp : p < 2 ^ w) (hr : r0 < 2 ^ w) (h : ChainOk w p r0 slot ch) (hlt : ch.k < ch.chainEnd) :
    SlotsOk w p (resolveOldest w slot (ch.shifted w p)) ∧
    Keeps slot (resolveOldest w slot (ch.shifted w p)) ∧
    (∀ c, slotAt (resolveOldest w slot (ch.shifted w p)) c = .inProgress →
      ch.k + 1 < ch.chainEnd ∧ c = top8 w ((step1 w p)^[ch.chainEnd - 8] r0)) := by
  by_cases h8 : 7 ≤ ch.k
  · have hs : (ch.shifted w p).snap[8]? = some ((step1 w p)^[ch.k - 7] r0) := by
      simpa [Chain.shifted] using h.snap 7 (by decide) h8
    have hcr : (ch.shifted w p).cr = (step1 w p)^[8] ((step1 w p)^[ch.k - 7] r0) := by
      rw [← Function.iterate_add_apply]
      have e : 8 + (ch.k - 7) = ch.k + 1 := by omega
      rw [e, Function.iterate_succ_apply', ← h.cr]; rfl
    have hval : (ch.shifted w p).cr ^^^ ((((step1 w p)^[ch.k - 7] r0) <<< 8) &&& mask w) =
        entry w p (top8 w ((step1 w p)^[ch.k - 7] r0)) := by
      rw [hcr, step1_iterate_eight hw (step1_iterate_lt hp hr _), Nat.xor_comm, ← Nat.xor_assoc, Nat.xor_self,
        Nat.zero_xor]
    have heq : resolveOldest w slot (ch.shifted w p) =
        resolveSnapshot w slot (ch.shifted w p).cr ((step1 w p)^[ch.k - 7] r0) := by
      rw [resolveOldest, hs]
    rw [heq]
    refine ⟨fun c v hv => ?_, fun c hc => ?_, fun c hc => ?_⟩
    · rcases slotAt_resolveSnapshot w slot (ch.shifted w p).cr ((step1 w p)^[ch.k - 7] r0) c with e | ⟨e1, e2⟩
      · exact h.values c v (e ▸ hv)
      · rw [e2] at hv
        rw [e1, ← hval]
        exact (SlotStatus.resolved.inj hv).symm
    · rcases slotAt_resolveSnapshot w slot (ch.shifted w p).cr ((step1 w p)^[ch.k - 7] r0) c with e | ⟨_, e2⟩
      · rw [e]; exact hc
      · rw [e2]; exact SlotStatus.noConfusion
    · rcases slotAt_resolveSnapshot w slot (ch.shifted w p).cr ((step1 w p)^[ch.k - 7] r0) c with e | ⟨_, e2⟩
      · obtain ⟨_, hc2⟩ := h.pending c (e ▸ hc)
        refine ⟨?_, hc2⟩
        by_contra hge
        have hk : ch.chainEnd - 8 = ch.k - 7 := by omega
        obtain ⟨v, hv⟩ := resolveSnapshot_resolves w slot (ch.shifted w p).cr ((step1 w p)^[ch.k - 7] r0)
        rw [hc2, hk, hv] at hc
        exact SlotStatus.noConfusion hc
      · rw [e2] at hc; exact SlotStatus.noConfusion hc
  · have hs : (ch.shifted w p).snap[8]? = none := by
      have hlen := h.len
      simp only [Chain.shifted, List.getElem?_eq_none_iff, List.length_take, List.length_cons]
      omega
    have heq : resolveOldest w slot (ch.shifted w p) = slot := by rw [resolveOldest, hs]
    rw [heq]
    refine ⟨h.values, fun c hc => hc, fun c hc => ⟨?_, (h.pending c hc).2⟩⟩
    have := h.first
    omega

/-- One pass of the inner loop keeps the chain's invariant, loses no slot, and brings the end of the chain
nearer: 8 for every Unresolved slot and 1 for every step still to run. -/
theorem chainStep_spec {w p r0 : Nat} {slot : Vector SlotStatus 256} {ch : Chain} (hw : 8 ≤ w)
    (hp : p < 2 ^ w) (hr : r0 < 2 ^ w) (h : ChainOk w p r0 slot ch) (hlt : ch.k < ch.chainEnd) :
    ChainOk w p r0 (chainStep w p slot ch).1 (chainStep w p slot ch).2 ∧
    Keeps slot (chainStep w p slot ch).1 ∧
    8 * unresolvedCount (chainStep w p slot ch).1 +
      ((chainStep w p slot ch).2.chainEnd - (chainStep w p slot ch).2.k) <
      8 * unresolvedCount slot + (ch.chainEnd - ch.k) := by
  obtain ⟨hvals, hkeeps, hpend⟩ := resolveOldest_spec hw hp hr h hlt
  have hcr : (ch.shifted w p).cr = (step1 w p)^[ch.k + 1] r0 := by
    rw [Function.iterate_succ_apply', ← h.cr]; rfl
  have hk : (ch.shifted w p).k = ch.k + 1 := rfl
  have hend : (ch.shifted w p).chainEnd = ch.chainEnd := rfl
  have hnear := h.near
  have hfirst := h.first
  have hlen : (ch.shifted w p).snap.length = min (ch.k + 1 + 1) 9 := by
    have := h.len
    simp only [Chain.shifted, List.length_take, List.length_cons]
    omega
  have hsnap : ∀ j, j ≤ 8 → j ≤ ch.k + 1 →
      (ch.shifted w p).snap[j]? = some ((step1 w p)^[ch.k + 1 - j] r0) := by
    intro j hj hjk
    have htake : (ch.shifted w p).snap[j]? = ((ch.shifted w p).cr :: ch.snap)[j]? := by
      simp only [Chain.shifted, List.getElem?_take]
      rw [if_pos (by omega)]
    rw [htake]
    cases j with
    | zero => simp [hcr]
    | succ j =>
      have e : ch.k + 1 - (j + 1) = ch.k - j := by omega
      rw [List.getElem?_cons_succ, h.snap j (by omega) (by omega), e]
  unfold chainStep extendChain
  split
  · rename_i hx
    obtain ⟨hx1, hx2⟩ := hx
    rw [hk, hend] at hx1
    have hkeeps2 : Keeps (resolveOldest w slot (ch.shifted w p))
        (setSlot (resolveOldest w slot (ch.shifted w p)) (top8 w (ch.shifted w p).cr) .inProgress) := by
      intro c hc
      rw [slotAt_setSlot]
      split
      · exact SlotStatus.noConfusion
      · exact hc
    refine ⟨⟨hcr, hsnap, hlen, by simp only [hk, hend]; omega, by simp only [hk, hend]; omega,
      by simp only [hend]; omega, ?_, ?_⟩, fun c hc => hkeeps2 c (hkeeps c hc), ?_⟩
    · intro c v hv
      rw [slotAt_setSlot] at hv
      split at hv
      · exact SlotStatus.noConfusion hv
      · exact hvals c v hv
    · intro c hc
      simp only [hk, hend]
      refine ⟨by omega, ?_⟩
      have e : ch.chainEnd + 8 - 8 = ch.k + 1 := by omega
      rw [e, ← hcr]
      rw [slotAt_setSlot] at hc
      split at hc
      · assumption
      · exact absurd (hpend c hc).1 (by omega)
    · have h1 : unresolvedCount (setSlot (resolveOldest w slot (ch.shifted w p))
          (top8 w (ch.shifted w p).cr) .inProgress) < unresolvedCount (resolveOldest w slot (ch.shifted w p)) :=
        unresolvedCount_lt hkeeps2 hx2 (by rw [slotAt_setSlot, if_pos rfl]; exact SlotStatus.noConfusion)
      have h2 := unresolvedCount_le_of_keeps hkeeps
      simp only [hk, hend]
      omega
  · refine ⟨⟨hcr, hsnap, hlen, by rw [hk, hend]; omega, by rw [hk, hend]; omega, by rw [hend]; omega, hvals, ?_⟩,
      hkeeps, ?_⟩
    · intro c hc
      rw [hk, hend]
      exact hpend c hc
    · have h2 := unresolvedCount_le_of_keeps hkeeps
      simp only [hk, hend]
      omega

/-- The inner loop runs a chain to its end. -/
theorem runChain_spec {w p r0 : Nat} (hw : 8 ≤ w) (hp : p < 2 ^ w) (hr : r0 < 2 ^ w) (fuel : Nat) :
    ∀ {slot : Vector SlotStatus 256} {ch : Chain}, ChainOk w p r0 slot ch →
      8 * unresolvedCount slot + (ch.chainEnd - ch.k) ≤ fuel →
      ChainOk w p r0 (runChain w p fuel (slot, ch)).1 (runChain w p fuel (slot, ch)).2 ∧
      Keeps slot (runChain w p fuel (slot, ch)).1 ∧
      (runChain w p fuel (slot, ch)).2.chainEnd ≤ (runChain w p fuel (slot, ch)).2.k := by
  induction fuel with
  | zero =>
    intro slot ch h hm
    exact ⟨h, fun c hc => hc, by simp only [runChain]; omega⟩
  | succ fuel ih =>
    intro slot ch h hm
    unfold runChain
    split
    · rename_i hlt
      obtain ⟨h1, h2, h3⟩ := chainStep_spec hw hp hr h hlt
      obtain ⟨i1, i2, i3⟩ := ih h1 (by omega)
      exact ⟨i1, fun c hc => i2 c (h2 c hc), i3⟩
    · rename_i hge
      exact ⟨h, fun c hc => hc, by omega⟩

/-! ### The outer loop -/

/-- What holds between chains: right values, nothing pending, slot 0 settled. -/
def SlotsSettled (w p : Nat) (slot : Vector SlotStatus 256) : Prop :=
  SlotsOk w p slot ∧ (∀ c, slotAt slot c ≠ .inProgress) ∧ slotAt slot 0 ≠ .unresolved

theorem entry_zero {w p : Nat} (hw : 8 ≤ w) : entry w p 0 = 0 := by
  have h0 : (0 : Nat) < 2 ^ (w - 8) := Nat.two_pow_pos _
  have := step1_iterate_of_lt (p := p) 8 hw h0
  simpa [entry] using this

theorem slotAt_start (c : Byte) :
    slotAt Builder.start.slot c = if c = 0 then .resolved 0 else .unresolved := by
  have : slotAt (Vector.replicate 256 SlotStatus.unresolved) c = .unresolved := by simp [slotAt]
  rw [Builder.start, slotAt_setSlot, this]

theorem start_settled {w p : Nat} (hw : 8 ≤ w) : SlotsSettled w p Builder.start.slot := by
  refine ⟨fun c v h => ?_, fun c h => ?_, ?_⟩
  · rw [slotAt_start] at h
    split at h
    · rename_i hc
      rw [hc, entry_zero hw]; exact (SlotStatus.resolved.inj h).symm
    · exact SlotStatus.noConfusion h
  · rw [slotAt_start] at h
    split at h <;> exact SlotStatus.noConfusion h
  · rw [slotAt_start, if_pos rfl]; exact SlotStatus.noConfusion

theorem seed_lt {w : Nat} (hw : 8 ≤ w) (c : Byte) : c.toNat <<< (w - 8) < 2 ^ w := by
  have e : 2 ^ w = 2 ^ 8 * 2 ^ (w - 8) := by rw [← Nat.pow_add]; congr 1; omega
  rw [Nat.shiftLeft_eq, e]
  exact Nat.mul_lt_mul_of_pos_right c.isLt (Nat.two_pow_pos _)

theorem top8_seed {w : Nat} (hw : 8 ≤ w) (c : Byte) : top8 w (c.toNat <<< (w - 8)) = c := by
  apply BitVec.eq_of_toNat_eq
  rw [top8_of_lt hw (seed_lt hw c), Nat.shiftLeft_shiftRight]

/-- A chain just seeded at an Unresolved slot. -/
theorem seeded_ok {w p : Nat} (hw : 8 ≤ w) {slot : Vector SlotStatus 256} (hs : SlotsSettled w p slot)
    (c : Byte) : ChainOk w p (c.toNat <<< (w - 8)) (setSlot slot c .inProgress) (Chain.seeded w c) := by
  refine ⟨rfl, fun j _ hj => ?_, rfl, Nat.zero_le 8, Nat.le_refl 8, Nat.le_refl 8, fun d v h => ?_, fun d h => ?_⟩
  · have : j = 0 := Nat.le_zero.mp hj
    subst this; rfl
  · rw [slotAt_setSlot] at h
    split at h
    · exact SlotStatus.noConfusion h
    · exact hs.1 d v h
  · refine ⟨Nat.zero_lt_succ 7, ?_⟩
    rw [slotAt_setSlot] at h
    split at h
    · rename_i hd
      show d = top8 w (c.toNat <<< (w - 8))
      rw [top8_seed hw, hd]
    · exact absurd h (hs.2.1 d)

theorem unresolvedCount_seeded {w p : Nat} {slot : Vector SlotStatus 256} (hs : SlotsSettled w p slot)
    {c : Byte} (hc : slotAt slot c = .unresolved) : unresolvedCount (setSlot slot c .inProgress) ≤ 254 := by
  have hk : Keeps slot (setSlot slot c .inProgress) := by
    intro d hd
    rw [slotAt_setSlot]
    split
    · exact SlotStatus.noConfusion
    · exact hd
  have h1 := unresolvedCount_lt hk hc (by rw [slotAt_setSlot, if_pos rfl]; exact SlotStatus.noConfusion)
  have h2 : unresolvedCount slot < 256 := by
    have hsub : (Finset.univ.filter fun c : Fin 256 => slotAt slot (BitVec.ofFin c) = .unresolved) ⊂
        (Finset.univ : Finset (Fin 256)) := by
      refine ⟨fun _ _ => Finset.mem_univ _, fun h => ?_⟩
      have := h (Finset.mem_univ (0 : Fin 256))
      simp only [Finset.mem_filter, Finset.mem_univ, true_and] at this
      exact hs.2.2 this
    simpa [unresolvedCount] using Finset.card_lt_card hsub
  omega

theorem resolveFrom_slot {w p : Nat} {b : Builder} {c : Byte} (h : slotAt b.slot c = .unresolved) :
    (b.resolveFrom w p c).slot =
      (runChain w p chainFuel (setSlot b.slot c .inProgress, Chain.seeded w c)).1 := by
  simp only [Builder.resolveFrom, h, Builder.openChain, Builder.runOpen]

theorem resolveFrom_of_settled {w p : Nat} {b : Builder} {c : Byte} (h : slotAt b.slot c ≠ .unresolved) :
    b.resolveFrom w p c = b := by
  unfold Builder.resolveFrom
  split
  · exact absurd (by assumption) h
  · rfl

/-- One pass of the outer loop settles its control byte and loses no slot. -/
theorem resolveFrom_spec {w p : Nat} (hw : 8 ≤ w) (hp : p < 2 ^ w) {b : Builder}
    (hs : SlotsSettled w p b.slot) (c : Byte) :
    SlotsSettled w p (b.resolveFrom w p c).slot ∧ Keeps b.slot (b.resolveFrom w p c).slot ∧
    slotAt (b.resolveFrom w p c).slot c ≠ .unresolved := by
  by_cases hc : slotAt b.slot c = .unresolved
  · have hm : 8 * unresolvedCount (setSlot b.slot c .inProgress) +
        ((Chain.seeded w c).chainEnd - (Chain.seeded w c).k) ≤ chainFuel := by
      have := unresolvedCount_seeded hs hc
      simp only [chainFuel, Chain.seeded]
      omega
    obtain ⟨h1, h2, h3⟩ := runChain_spec hw hp (seed_lt hw c) chainFuel (seeded_ok hw hs c) hm
    have hkeep : Keeps b.slot (setSlot b.slot c .inProgress) := by
      intro d hd
      rw [slotAt_setSlot]
      split
      · exact SlotStatus.noConfusion
      · exact hd
    rw [resolveFrom_slot hc]
    refine ⟨⟨h1.values, fun d hd => ?_, h2 0 (hkeep 0 hs.2.2)⟩, fun d hd => h2 d (hkeep d hd), h2 c ?_⟩
    · have := (h1.pending d hd).1
      omega
    · rw [slotAt_setSlot, if_pos rfl]; exact SlotStatus.noConfusion
  · rw [resolveFrom_of_settled hc]
    exact ⟨hs, fun d hd => hd, hc⟩

theorem foldl_resolveFrom_spec {w p : Nat} (hw : 8 ≤ w) (hp : p < 2 ^ w) (l : List Byte) :
    ∀ {b : Builder}, SlotsSettled w p b.slot →
      SlotsSettled w p (l.foldl (Builder.resolveFrom w p) b).slot ∧
      Keeps b.slot (l.foldl (Builder.resolveFrom w p) b).slot ∧
      ∀ c ∈ l, slotAt (l.foldl (Builder.resolveFrom w p) b).slot c ≠ .unresolved := by
  induction l with
  | nil => intro b hs; exact ⟨hs, fun c hc => hc, fun c hc => absurd hc List.not_mem_nil⟩
  | cons a l ih =>
    intro b hs
    obtain ⟨h1, h2, h3⟩ := resolveFrom_spec hw hp hs a
    obtain ⟨i1, i2, i3⟩ := ih h1
    refine ⟨i1, fun c hc => i2 c (h2 c hc), fun c hc => ?_⟩
    rcases List.mem_cons.mp hc with e | hl
    · exact e ▸ i2 a h3
    · exact i3 c hl

theorem mem_controlBytes (c : Byte) : c ∈ controlBytes := by
  rw [controlBytes, List.mem_map]
  exact ⟨c.toNat, List.mem_range.mpr c.isLt, by simp⟩

/-- When the outer loop has ended every slot is Resolved with its entry (R141, R142). -/
theorem run_resolves {w p : Nat} (hw : 8 ≤ w) (hp : p < 2 ^ w) (c : Byte) :
    slotAt (Builder.start.run w p).slot c = .resolved (entry w p c) := by
  obtain ⟨⟨h1, h2, _⟩, _, h4⟩ := foldl_resolveFrom_spec hw hp controlBytes (start_settled (p := p) hw)
  rw [← Builder.run] at h1 h2 h4
  have hu := h4 c (mem_controlBytes c)
  cases hv : slotAt (Builder.start.run w p).slot c with
  | unresolved => exact absurd hv hu
  | inProgress => exact absurd hv (h2 c)
  | resolved v => rw [h1 c v hv]

theorem run_getElem {w p : Nat} (hw : 8 ≤ w) (hp : p < 2 ^ w) (i : Nat) (hi : i < 256) :
    (Builder.start.run w p).slot[i] = .resolved (entry w p (BitVec.ofNat 8 i)) := by
  have h := run_resolves hw hp (BitVec.ofNat 8 i)
  have e : (BitVec.ofNat 8 i).toNat = i := by rw [BitVec.toNat_ofNat]; omega
  rw [← h, slotAt]
  simp only [e]

/-- The chain-closure method computes the direct table (R140, R141). -/
theorem chainClosure_table {w p : Nat} (hw : 8 ≤ w) (hp : p < 2 ^ w) :
    (Builder.start.run w p).table? w = some (directTable w p) := by
  have hall : (Builder.start.run w p).slot.all (fun x => x.value?.isSome) = true := by
    rw [Vector.all_eq_true]
    intro i hi
    rw [run_getElem hw hp i hi]; rfl
  rw [Builder.table?, if_pos hall]
  refine congrArg some (Vector.ext fun i hi => ?_)
  rw [Vector.getElem_map, run_getElem hw hp i hi, directTable, Vector.getElem_ofFn]
  rfl

end Sys2Proof.Machine
end

