-- ==== Sys2Proof/Laws/State.lean ====
section
/-!
SUPPORT. What each named update of State leaves in each field, one lemma per field per update, so that no
proof unfolds a record update.
-/

namespace Sys2Proof.Machine

/-! ### `raise` -/

@[simp] theorem raise_phase (e : ErrorKind) (s : State) : (raise e s).phase = .done := rfl
@[simp] theorem raise_cmd (e : ErrorKind) (s : State) : (raise e s).cmd = s.cmd := rfl
@[simp] theorem raise_cfgW (e : ErrorKind) (s : State) : (raise e s).cfgW = s.cfgW := rfl
@[simp] theorem raise_cfgP (e : ErrorKind) (s : State) : (raise e s).cfgP = s.cfgP := rfl
@[simp] theorem raise_cfgI (e : ErrorKind) (s : State) : (raise e s).cfgI = s.cfgI := rfl
@[simp] theorem raise_cfgX (e : ErrorKind) (s : State) : (raise e s).cfgX = s.cfgX := rfl
@[simp] theorem raise_cfgRefin (e : ErrorKind) (s : State) : (raise e s).cfgRefin = s.cfgRefin := rfl
@[simp] theorem raise_cfgRefout (e : ErrorKind) (s : State) : (raise e s).cfgRefout = s.cfgRefout := rfl
@[simp] theorem raise_cfgAlgo (e : ErrorKind) (s : State) : (raise e s).cfgAlgo = s.cfgAlgo := rfl
@[simp] theorem raise_msg (e : ErrorKind) (s : State) : (raise e s).msg = s.msg := rfl
@[simp] theorem raise_idx (e : ErrorKind) (s : State) : (raise e s).idx = s.idx := rfl
@[simp] theorem raise_bitpos (e : ErrorKind) (s : State) : (raise e s).bitpos = s.bitpos := rfl
@[simp] theorem raise_reg (e : ErrorKind) (s : State) : (raise e s).reg = s.reg := rfl
@[simp] theorem raise_tbl (e : ErrorKind) (s : State) : (raise e s).tbl = s.tbl := rfl
@[simp] theorem raise_rspStatus (e : ErrorKind) (s : State) : (raise e s).rspStatus = some (.error e) := rfl
@[simp] theorem raise_rspValue (e : ErrorKind) (s : State) : (raise e s).rspValue = none := rfl
@[simp] theorem raise_builder (e : ErrorKind) (s : State) : (raise e s).builder = s.builder := rfl
@[simp] theorem raise_cache (e : ErrorKind) (s : State) : (raise e s).cache = s.cache := rfl
@[simp] theorem raise_config (e : ErrorKind) (s : State) : (raise e s).config = s.config := rfl
@[simp] theorem raise_script (e : ErrorKind) (s : State) : (raise e s).script = s.script := rfl
@[simp] theorem raise_responses (e : ErrorKind) (s : State) : (raise e s).responses = s.responses := rfl
@[simp] theorem raise_resetPin (e : ErrorKind) (s : State) : (raise e s).resetPin = s.resetPin := rfl

/-! ### `respond` -/

@[simp] theorem respond_phase (v : RspValue) (s : State) : (respond v s).phase = .done := rfl
@[simp] theorem respond_cmd (v : RspValue) (s : State) : (respond v s).cmd = s.cmd := rfl
@[simp] theorem respond_cfgW (v : RspValue) (s : State) : (respond v s).cfgW = s.cfgW := rfl
@[simp] theorem respond_cfgP (v : RspValue) (s : State) : (respond v s).cfgP = s.cfgP := rfl
@[simp] theorem respond_cfgI (v : RspValue) (s : State) : (respond v s).cfgI = s.cfgI := rfl
@[simp] theorem respond_cfgX (v : RspValue) (s : State) : (respond v s).cfgX = s.cfgX := rfl
@[simp] theorem respond_cfgRefin (v : RspValue) (s : State) : (respond v s).cfgRefin = s.cfgRefin := rfl
@[simp] theorem respond_cfgRefout (v : RspValue) (s : State) : (respond v s).cfgRefout = s.cfgRefout := rfl
@[simp] theorem respond_cfgAlgo (v : RspValue) (s : State) : (respond v s).cfgAlgo = s.cfgAlgo := rfl
@[simp] theorem respond_msg (v : RspValue) (s : State) : (respond v s).msg = s.msg := rfl
@[simp] theorem respond_idx (v : RspValue) (s : State) : (respond v s).idx = s.idx := rfl
@[simp] theorem respond_bitpos (v : RspValue) (s : State) : (respond v s).bitpos = s.bitpos := rfl
@[simp] theorem respond_reg (v : RspValue) (s : State) : (respond v s).reg = s.reg := rfl
@[simp] theorem respond_tbl (v : RspValue) (s : State) : (respond v s).tbl = s.tbl := rfl
@[simp] theorem respond_rspStatus (v : RspValue) (s : State) : (respond v s).rspStatus = some .ok := rfl
@[simp] theorem respond_rspValue (v : RspValue) (s : State) : (respond v s).rspValue = some v := rfl
@[simp] theorem respond_builder (v : RspValue) (s : State) : (respond v s).builder = s.builder := rfl
@[simp] theorem respond_cache (v : RspValue) (s : State) : (respond v s).cache = s.cache := rfl
@[simp] theorem respond_config (v : RspValue) (s : State) : (respond v s).config = s.config := rfl
@[simp] theorem respond_script (v : RspValue) (s : State) : (respond v s).script = s.script := rfl
@[simp] theorem respond_responses (v : RspValue) (s : State) : (respond v s).responses = s.responses := rfl
@[simp] theorem respond_resetPin (v : RspValue) (s : State) : (respond v s).resetPin = s.resetPin := rfl

/-! ### `latchCrc` -/

@[simp] theorem latchCrc_phase (c : CmdWord) (w : Nat) (o : CrcOperands) (m : List Byte) (s : State) : (latchCrc c w o m s).phase = .init := rfl
@[simp] theorem latchCrc_cmd (c : CmdWord) (w : Nat) (o : CrcOperands) (m : List Byte) (s : State) : (latchCrc c w o m s).cmd = s.cmd := rfl
@[simp] theorem latchCrc_cfgW (c : CmdWord) (w : Nat) (o : CrcOperands) (m : List Byte) (s : State) : (latchCrc c w o m s).cfgW = some w := rfl
@[simp] theorem latchCrc_cfgP (c : CmdWord) (w : Nat) (o : CrcOperands) (m : List Byte) (s : State) : (latchCrc c w o m s).cfgP = some (o.poly &&& mask w) := rfl
@[simp] theorem latchCrc_cfgI (c : CmdWord) (w : Nat) (o : CrcOperands) (m : List Byte) (s : State) : (latchCrc c w o m s).cfgI = some (o.init &&& mask w) := rfl
@[simp] theorem latchCrc_cfgX (c : CmdWord) (w : Nat) (o : CrcOperands) (m : List Byte) (s : State) : (latchCrc c w o m s).cfgX = some (o.xorout &&& mask w) := rfl
@[simp] theorem latchCrc_cfgRefin (c : CmdWord) (w : Nat) (o : CrcOperands) (m : List Byte) (s : State) : (latchCrc c w o m s).cfgRefin = some o.refin := rfl
@[simp] theorem latchCrc_cfgRefout (c : CmdWord) (w : Nat) (o : CrcOperands) (m : List Byte) (s : State) : (latchCrc c w o m s).cfgRefout = some o.refout := rfl
@[simp] theorem latchCrc_cfgAlgo (c : CmdWord) (w : Nat) (o : CrcOperands) (m : List Byte) (s : State) : (latchCrc c w o m s).cfgAlgo = some (algoOfCode (BitVec.ofNat 2 (c.toNat % 4))) := rfl
@[simp] theorem latchCrc_msg (c : CmdWord) (w : Nat) (o : CrcOperands) (m : List Byte) (s : State) : (latchCrc c w o m s).msg = some m := rfl
@[simp] theorem latchCrc_idx (c : CmdWord) (w : Nat) (o : CrcOperands) (m : List Byte) (s : State) : (latchCrc c w o m s).idx = s.idx := rfl
@[simp] theorem latchCrc_bitpos (c : CmdWord) (w : Nat) (o : CrcOperands) (m : List Byte) (s : State) : (latchCrc c w o m s).bitpos = s.bitpos := rfl
@[simp] theorem latchCrc_reg (c : CmdWord) (w : Nat) (o : CrcOperands) (m : List Byte) (s : State) : (latchCrc c w o m s).reg = s.reg := rfl
@[simp] theorem latchCrc_tbl (c : CmdWord) (w : Nat) (o : CrcOperands) (m : List Byte) (s : State) : (latchCrc c w o m s).tbl = s.tbl := rfl
@[simp] theorem latchCrc_rspStatus (c : CmdWord) (w : Nat) (o : CrcOperands) (m : List Byte) (s : State) : (latchCrc c w o m s).rspStatus = s.rspStatus := rfl
@[simp] theorem latchCrc_rspValue (c : CmdWord) (w : Nat) (o : CrcOperands) (m : List Byte) (s : State) : (latchCrc c w o m s).rspValue = s.rspValue := rfl
@[simp] theorem latchCrc_builder (c : CmdWord) (w : Nat) (o : CrcOperands) (m : List Byte) (s : State) : (latchCrc c w o m s).builder = s.builder := rfl
@[simp] theorem latchCrc_cache (c : CmdWord) (w : Nat) (o : CrcOperands) (m : List Byte) (s : State) : (latchCrc c w o m s).cache = s.cache := rfl
@[simp] theorem latchCrc_config (c : CmdWord) (w : Nat) (o : CrcOperands) (m : List Byte) (s : State) : (latchCrc c w o m s).config = s.config := rfl
@[simp] theorem latchCrc_script (c : CmdWord) (w : Nat) (o : CrcOperands) (m : List Byte) (s : State) : (latchCrc c w o m s).script = s.script := rfl
@[simp] theorem latchCrc_responses (c : CmdWord) (w : Nat) (o : CrcOperands) (m : List Byte) (s : State) : (latchCrc c w o m s).responses = s.responses := rfl
@[simp] theorem latchCrc_resetPin (c : CmdWord) (w : Nat) (o : CrcOperands) (m : List Byte) (s : State) : (latchCrc c w o m s).resetPin = s.resetPin := rfl

/-! ### `retire` -/

@[simp] theorem retire_phase (s : State) : (retire s).phase = .idle := rfl
@[simp] theorem retire_cmd (s : State) : (retire s).cmd = none := rfl
@[simp] theorem retire_cfgW (s : State) : (retire s).cfgW = none := rfl
@[simp] theorem retire_cfgP (s : State) : (retire s).cfgP = none := rfl
@[simp] theorem retire_cfgI (s : State) : (retire s).cfgI = none := rfl
@[simp] theorem retire_cfgX (s : State) : (retire s).cfgX = none := rfl
@[simp] theorem retire_cfgRefin (s : State) : (retire s).cfgRefin = none := rfl
@[simp] theorem retire_cfgRefout (s : State) : (retire s).cfgRefout = none := rfl
@[simp] theorem retire_cfgAlgo (s : State) : (retire s).cfgAlgo = none := rfl
@[simp] theorem retire_msg (s : State) : (retire s).msg = none := rfl
@[simp] theorem retire_idx (s : State) : (retire s).idx = none := rfl
@[simp] theorem retire_bitpos (s : State) : (retire s).bitpos = none := rfl
@[simp] theorem retire_reg (s : State) : (retire s).reg = none := rfl
@[simp] theorem retire_tbl (s : State) : (retire s).tbl = none := rfl
@[simp] theorem retire_rspStatus (s : State) : (retire s).rspStatus = none := rfl
@[simp] theorem retire_rspValue (s : State) : (retire s).rspValue = none := rfl
@[simp] theorem retire_builder (s : State) : (retire s).builder = none := rfl
@[simp] theorem retire_cache (s : State) : (retire s).cache = s.cache := rfl
@[simp] theorem retire_config (s : State) : (retire s).config = s.config := rfl
@[simp] theorem retire_script (s : State) : (retire s).script = s.script := rfl
@[simp] theorem retire_responses (s : State) : (retire s).responses = s.responses := rfl
@[simp] theorem retire_resetPin (s : State) : (retire s).resetPin = s.resetPin := rfl

/-! ### `assertReset` -/

@[simp] theorem assertReset_phase (s : State) : (assertReset s).phase = .idle := rfl
@[simp] theorem assertReset_cmd (s : State) : (assertReset s).cmd = none := rfl
@[simp] theorem assertReset_cfgW (s : State) : (assertReset s).cfgW = none := rfl
@[simp] theorem assertReset_cfgP (s : State) : (assertReset s).cfgP = none := rfl
@[simp] theorem assertReset_cfgI (s : State) : (assertReset s).cfgI = none := rfl
@[simp] theorem assertReset_cfgX (s : State) : (assertReset s).cfgX = none := rfl
@[simp] theorem assertReset_cfgRefin (s : State) : (assertReset s).cfgRefin = none := rfl
@[simp] theorem assertReset_cfgRefout (s : State) : (assertReset s).cfgRefout = none := rfl
@[simp] theorem assertReset_cfgAlgo (s : State) : (assertReset s).cfgAlgo = none := rfl
@[simp] theorem assertReset_msg (s : State) : (assertReset s).msg = none := rfl
@[simp] theorem assertReset_idx (s : State) : (assertReset s).idx = none := rfl
@[simp] theorem assertReset_bitpos (s : State) : (assertReset s).bitpos = none := rfl
@[simp] theorem assertReset_reg (s : State) : (assertReset s).reg = none := rfl
@[simp] theorem assertReset_tbl (s : State) : (assertReset s).tbl = none := rfl
@[simp] theorem assertReset_rspStatus (s : State) : (assertReset s).rspStatus = none := rfl
@[simp] theorem assertReset_rspValue (s : State) : (assertReset s).rspValue = none := rfl
@[simp] theorem assertReset_builder (s : State) : (assertReset s).builder = none := rfl
@[simp] theorem assertReset_cache (s : State) : (assertReset s).cache = [] := rfl
@[simp] theorem assertReset_config (s : State) : (assertReset s).config = s.config := rfl
@[simp] theorem assertReset_script (s : State) : (assertReset s).script = s.script := rfl
@[simp] theorem assertReset_responses (s : State) : (assertReset s).responses = s.responses := rfl
@[simp] theorem assertReset_resetPin (s : State) : (assertReset s).resetPin = s.resetPin := rfl

/-! ### `closeBuilder` -/

@[simp] theorem closeBuilder_phase (t : Table) (s : State) : (closeBuilder t s).phase = s.phase := rfl
@[simp] theorem closeBuilder_cmd (t : Table) (s : State) : (closeBuilder t s).cmd = s.cmd := rfl
@[simp] theorem closeBuilder_cfgW (t : Table) (s : State) : (closeBuilder t s).cfgW = s.cfgW := rfl
@[simp] theorem closeBuilder_cfgP (t : Table) (s : State) : (closeBuilder t s).cfgP = s.cfgP := rfl
@[simp] theorem closeBuilder_cfgI (t : Table) (s : State) : (closeBuilder t s).cfgI = s.cfgI := rfl
@[simp] theorem closeBuilder_cfgX (t : Table) (s : State) : (closeBuilder t s).cfgX = s.cfgX := rfl
@[simp] theorem closeBuilder_cfgRefin (t : Table) (s : State) : (closeBuilder t s).cfgRefin = s.cfgRefin := rfl
@[simp] theorem closeBuilder_cfgRefout (t : Table) (s : State) : (closeBuilder t s).cfgRefout = s.cfgRefout := rfl
@[simp] theorem closeBuilder_cfgAlgo (t : Table) (s : State) : (closeBuilder t s).cfgAlgo = s.cfgAlgo := rfl
@[simp] theorem closeBuilder_msg (t : Table) (s : State) : (closeBuilder t s).msg = s.msg := rfl
@[simp] theorem closeBuilder_idx (t : Table) (s : State) : (closeBuilder t s).idx = s.idx := rfl
@[simp] theorem closeBuilder_bitpos (t : Table) (s : State) : (closeBuilder t s).bitpos = s.bitpos := rfl
@[simp] theorem closeBuilder_reg (t : Table) (s : State) : (closeBuilder t s).reg = s.reg := rfl
@[simp] theorem closeBuilder_tbl (t : Table) (s : State) : (closeBuilder t s).tbl = some t := rfl
@[simp] theorem closeBuilder_rspStatus (t : Table) (s : State) : (closeBuilder t s).rspStatus = s.rspStatus := rfl
@[simp] theorem closeBuilder_rspValue (t : Table) (s : State) : (closeBuilder t s).rspValue = s.rspValue := rfl
@[simp] theorem closeBuilder_builder (t : Table) (s : State) : (closeBuilder t s).builder = none := rfl
@[simp] theorem closeBuilder_cache (t : Table) (s : State) : (closeBuilder t s).cache = s.cache := rfl
@[simp] theorem closeBuilder_config (t : Table) (s : State) : (closeBuilder t s).config = s.config := rfl
@[simp] theorem closeBuilder_script (t : Table) (s : State) : (closeBuilder t s).script = s.script := rfl
@[simp] theorem closeBuilder_responses (t : Table) (s : State) : (closeBuilder t s).responses = s.responses := rfl
@[simp] theorem closeBuilder_resetPin (t : Table) (s : State) : (closeBuilder t s).resetPin = s.resetPin := rfl

/-! ### `rememberTable` -/

@[simp] theorem rememberTable_phase (key : CacheKey) (t : Table) (s : State) : (rememberTable key t s).phase = s.phase := rfl
@[simp] theorem rememberTable_cmd (key : CacheKey) (t : Table) (s : State) : (rememberTable key t s).cmd = s.cmd := rfl
@[simp] theorem rememberTable_cfgW (key : CacheKey) (t : Table) (s : State) : (rememberTable key t s).cfgW = s.cfgW := rfl
@[simp] theorem rememberTable_cfgP (key : CacheKey) (t : Table) (s : State) : (rememberTable key t s).cfgP = s.cfgP := rfl
@[simp] theorem rememberTable_cfgI (key : CacheKey) (t : Table) (s : State) : (rememberTable key t s).cfgI = s.cfgI := rfl
@[simp] theorem rememberTable_cfgX (key : CacheKey) (t : Table) (s : State) : (rememberTable key t s).cfgX = s.cfgX := rfl
@[simp] theorem rememberTable_cfgRefin (key : CacheKey) (t : Table) (s : State) : (rememberTable key t s).cfgRefin = s.cfgRefin := rfl
@[simp] theorem rememberTable_cfgRefout (key : CacheKey) (t : Table) (s : State) : (rememberTable key t s).cfgRefout = s.cfgRefout := rfl
@[simp] theorem rememberTable_cfgAlgo (key : CacheKey) (t : Table) (s : State) : (rememberTable key t s).cfgAlgo = s.cfgAlgo := rfl
@[simp] theorem rememberTable_msg (key : CacheKey) (t : Table) (s : State) : (rememberTable key t s).msg = s.msg := rfl
@[simp] theorem rememberTable_idx (key : CacheKey) (t : Table) (s : State) : (rememberTable key t s).idx = s.idx := rfl
@[simp] theorem rememberTable_bitpos (key : CacheKey) (t : Table) (s : State) : (rememberTable key t s).bitpos = s.bitpos := rfl
@[simp] theorem rememberTable_reg (key : CacheKey) (t : Table) (s : State) : (rememberTable key t s).reg = s.reg := rfl
@[simp] theorem rememberTable_tbl (key : CacheKey) (t : Table) (s : State) : (rememberTable key t s).tbl = s.tbl := rfl
@[simp] theorem rememberTable_rspStatus (key : CacheKey) (t : Table) (s : State) : (rememberTable key t s).rspStatus = s.rspStatus := rfl
@[simp] theorem rememberTable_rspValue (key : CacheKey) (t : Table) (s : State) : (rememberTable key t s).rspValue = s.rspValue := rfl
@[simp] theorem rememberTable_builder (key : CacheKey) (t : Table) (s : State) : (rememberTable key t s).builder = s.builder := rfl
@[simp] theorem rememberTable_cache (key : CacheKey) (t : Table) (s : State) : (rememberTable key t s).cache = cacheInsert s.config.tableCache s.cache key t := rfl
@[simp] theorem rememberTable_config (key : CacheKey) (t : Table) (s : State) : (rememberTable key t s).config = s.config := rfl
@[simp] theorem rememberTable_script (key : CacheKey) (t : Table) (s : State) : (rememberTable key t s).script = s.script := rfl
@[simp] theorem rememberTable_responses (key : CacheKey) (t : Table) (s : State) : (rememberTable key t s).responses = s.responses := rfl
@[simp] theorem rememberTable_resetPin (key : CacheKey) (t : Table) (s : State) : (rememberTable key t s).resetPin = s.resetPin := rfl

/-! ### `dropPin` -/

@[simp] theorem dropPin_phase (s : State) : (dropPin s).phase = s.phase := rfl
@[simp] theorem dropPin_cmd (s : State) : (dropPin s).cmd = s.cmd := rfl
@[simp] theorem dropPin_cfgW (s : State) : (dropPin s).cfgW = s.cfgW := rfl
@[simp] theorem dropPin_cfgP (s : State) : (dropPin s).cfgP = s.cfgP := rfl
@[simp] theorem dropPin_cfgI (s : State) : (dropPin s).cfgI = s.cfgI := rfl
@[simp] theorem dropPin_cfgX (s : State) : (dropPin s).cfgX = s.cfgX := rfl
@[simp] theorem dropPin_cfgRefin (s : State) : (dropPin s).cfgRefin = s.cfgRefin := rfl
@[simp] theorem dropPin_cfgRefout (s : State) : (dropPin s).cfgRefout = s.cfgRefout := rfl
@[simp] theorem dropPin_cfgAlgo (s : State) : (dropPin s).cfgAlgo = s.cfgAlgo := rfl
@[simp] theorem dropPin_msg (s : State) : (dropPin s).msg = s.msg := rfl
@[simp] theorem dropPin_idx (s : State) : (dropPin s).idx = s.idx := rfl
@[simp] theorem dropPin_bitpos (s : State) : (dropPin s).bitpos = s.bitpos := rfl
@[simp] theorem dropPin_reg (s : State) : (dropPin s).reg = s.reg := rfl
@[simp] theorem dropPin_tbl (s : State) : (dropPin s).tbl = s.tbl := rfl
@[simp] theorem dropPin_rspStatus (s : State) : (dropPin s).rspStatus = s.rspStatus := rfl
@[simp] theorem dropPin_rspValue (s : State) : (dropPin s).rspValue = s.rspValue := rfl
@[simp] theorem dropPin_builder (s : State) : (dropPin s).builder = s.builder := rfl
@[simp] theorem dropPin_cache (s : State) : (dropPin s).cache = s.cache := rfl
@[simp] theorem dropPin_config (s : State) : (dropPin s).config = s.config := rfl
@[simp] theorem dropPin_script (s : State) : (dropPin s).script = s.script := rfl
@[simp] theorem dropPin_responses (s : State) : (dropPin s).responses = s.responses := rfl
@[simp] theorem dropPin_resetPin (s : State) : (dropPin s).resetPin = s.resetPin.tail := rfl

/-! ### `present` -/

@[simp] theorem present_phase (r : Request) (s : State) : (present r s).phase = .idle := rfl
@[simp] theorem present_cmd (r : Request) (s : State) : (present r s).cmd = s.cmd := rfl
@[simp] theorem present_cfgW (r : Request) (s : State) : (present r s).cfgW = s.cfgW := rfl
@[simp] theorem present_cfgP (r : Request) (s : State) : (present r s).cfgP = s.cfgP := rfl
@[simp] theorem present_cfgI (r : Request) (s : State) : (present r s).cfgI = s.cfgI := rfl
@[simp] theorem present_cfgX (r : Request) (s : State) : (present r s).cfgX = s.cfgX := rfl
@[simp] theorem present_cfgRefin (r : Request) (s : State) : (present r s).cfgRefin = s.cfgRefin := rfl
@[simp] theorem present_cfgRefout (r : Request) (s : State) : (present r s).cfgRefout = s.cfgRefout := rfl
@[simp] theorem present_cfgAlgo (r : Request) (s : State) : (present r s).cfgAlgo = s.cfgAlgo := rfl
@[simp] theorem present_msg (r : Request) (s : State) : (present r s).msg = s.msg := rfl
@[simp] theorem present_idx (r : Request) (s : State) : (present r s).idx = s.idx := rfl
@[simp] theorem present_bitpos (r : Request) (s : State) : (present r s).bitpos = s.bitpos := rfl
@[simp] theorem present_reg (r : Request) (s : State) : (present r s).reg = s.reg := rfl
@[simp] theorem present_tbl (r : Request) (s : State) : (present r s).tbl = s.tbl := rfl
@[simp] theorem present_rspStatus (r : Request) (s : State) : (present r s).rspStatus = s.rspStatus := rfl
@[simp] theorem present_rspValue (r : Request) (s : State) : (present r s).rspValue = s.rspValue := rfl
@[simp] theorem present_builder (r : Request) (s : State) : (present r s).builder = s.builder := rfl
@[simp] theorem present_cache (r : Request) (s : State) : (present r s).cache = s.cache := rfl
@[simp] theorem present_config (r : Request) (s : State) : (present r s).config = s.config := rfl
@[simp] theorem present_script (r : Request) (s : State) : (present r s).script = r :: s.script := rfl
@[simp] theorem present_responses (r : Request) (s : State) : (present r s).responses = s.responses := rfl
@[simp] theorem present_resetPin (r : Request) (s : State) : (present r s).resetPin = false :: s.resetPin := rfl

end Sys2Proof.Machine
end

