-- ==== Sys2Proof/Laws/Ops.lean ====
section
/-!
SUPPORT. What the shared operations answer: reading a register, accepting, the operands, constructing a table,
delivering a response. Proofs about the machine cite these and do not unfold the operations.
-/

namespace Sys2Proof.Machine

/-! ### Reading -/

@[simp] theorem readReg_some {α : Type} (r : Reg) (a : α) (k : α → StepOutcome) :
    readReg r (some a) k = k a := rfl

@[simp] theorem readReg_none {α : Type} (r : Reg) (k : α → StepOutcome) :
    readReg r none k = .fault (.unwritten r) := rfl

theorem readReg_next {α : Type} {r : Reg} {v : Option α} {k : α → StepOutcome} {t : State}
    (h : readReg r v k = .next t) : ∃ a, v = some a ∧ k a = .next t := by
  cases v with
  | none => cases h
  | some a => exact ⟨a, rfl, h⟩

theorem readStream_eq {l : List Byte} {j : Nat} (h : j < l.length) (k : Byte → StepOutcome) :
    readStream l j k = k l[j] := by
  simp [readStream, msgRead, List.getElem?_eq_getElem h]

theorem readStream_next {l : List Byte} {j : Nat} {k : Byte → StepOutcome} {t : State}
    (h : readStream l j k = .next t) : ∃ b, l[j]? = some b ∧ k b = .next t := by
  unfold readStream msgRead at h
  split at h
  · exact ⟨_, by assumption, h⟩
  · cases h

/-! ### Accepting and the operands -/

theorem accept_idle {cmd : CmdWord} {s : State} (h : s.phase = .idle) (k : State → StepOutcome) :
    accept cmd s k = k { s with cmd := some cmd } := by
  simp [accept, h]

theorem accept_busy {cmd : CmdWord} {s : State} (h : s.phase ≠ .idle) (k : State → StepOutcome) :
    accept cmd s k = .refused .requestWhileBusy := by
  unfold accept
  split
  · exact absurd (by assumption) h
  · rfl

theorem accept_next {cmd : CmdWord} {s t : State} {k : State → StepOutcome} (h : accept cmd s k = .next t) :
    s.phase = .idle ∧ k { s with cmd := some cmd } = .next t := by
  by_cases hp : s.phase = .idle
  · exact ⟨hp, accept_idle hp k ▸ h⟩
  · rw [accept_busy hp] at h; cases h

theorem widthAllowed_iff (c : Config) (w : Nat) :
    widthAllowed c w = true ↔ 8 ≤ w ∧ w % 8 = 0 ∧ ∀ m, c.wMax = some m → w ≤ m := by
  cases h : c.wMax with
  | none => simp [widthAllowed, h]
  | some m => simp [widthAllowed, h, and_assoc]

theorem legalWidth_some {c : Config} {v : WidthPort} {w : Nat} (h : legalWidth c v = some w) :
    v = some (w : Int) ∧ widthAllowed c w = true := by
  unfold legalWidth at h
  split at h
  · split at h
    · rename_i hw
      cases h
      exact ⟨rfl, hw⟩
    · cases h
  · cases h
  · cases h

theorem legalWidth_of_allowed {c : Config} {w : Nat} (h : widthAllowed c w = true) :
    legalWidth c (some (w : Int)) = some w := by
  show (if widthAllowed c w then some w else none) = some w
  rw [if_pos h]

theorem validByte_iff (e : Elem) (b : Byte) : validByte e = some b ↔ e = .int (b.toNat : Int) := by
  constructor
  · intro h
    unfold validByte at h
    split at h
    · rename_i n
      split at h
      · cases h
        have : (BitVec.ofNat 8 n).toNat = n := by rw [BitVec.toNat_ofNat]; omega
        rw [this]; rfl
      · cases h
    · cases h
    · cases h
  · rintro rfl
    show (if b.toNat ≤ 255 then some (BitVec.ofNat 8 b.toNat) else none) = some b
    have : b.toNat ≤ 255 := by have := b.isLt; omega
    rw [if_pos this]; simp

theorem validBytes_iff (l : List Elem) (m : List Byte) :
    validBytes l = some m ↔ l = m.map fun b => Elem.int (b.toNat : Int) := by
  induction l generalizing m with
  | nil => cases m <;> simp [validBytes]
  | cons e l ih =>
    cases m with
    | nil =>
      simp only [List.map_nil, reduceCtorEq, iff_false]
      intro h
      unfold validBytes at h
      split at h <;> cases h
    | cons b m =>
      rw [List.map_cons, List.cons.injEq, ← validByte_iff, ← ih]
      rw [validBytes]
      cases validByte e <;> cases validBytes l <;> simp

@[simp] theorem algoOfCode_zero : algoOfCode 0#2 = .bitSerial := rfl
@[simp] theorem algoOfCode_one : algoOfCode 1#2 = .table := rfl
@[simp] theorem algoOfCode_two : algoOfCode 2#2 = .optimizedTable := rfl
@[simp] theorem algoOfCode_three : algoOfCode 3#2 = .reflectedTable := rfl

/-- What the CRC accept step answers in IDLE (R162, R212, R213, R215). -/
theorem acceptCrc_cases (cmd : CmdWord) (o : CrcOperands) {s : State} (h : s.phase = .idle) :
    (legalWidth s.config o.width = none ∧
      acceptCrc cmd o s = .next (raise .invalidWidth { s with cmd := some cmd })) ∨
    (∃ w, legalWidth s.config o.width = some w ∧ validBytes o.msg = none ∧
      acceptCrc cmd o s = .next (raise .invalidMessageElement { s with cmd := some cmd })) ∨
    (∃ w m, legalWidth s.config o.width = some w ∧ validBytes o.msg = some m ∧
      acceptCrc cmd o s = .next (latchCrc cmd w o m { s with cmd := some cmd })) := by
  rw [acceptCrc, accept_idle h]
  cases hw : legalWidth s.config o.width with
  | none => exact .inl ⟨rfl, rfl⟩
  | some w =>
    cases hm : validBytes o.msg with
    | none => exact .inr (.inl ⟨w, rfl, rfl, rfl⟩)
    | some m => exact .inr (.inr ⟨w, m, rfl, rfl, rfl⟩)

/-! ### Tables and the cache -/

@[simp] theorem tblRead_directTable (w p : Nat) (c : Byte) :
    tblRead (directTable w p) c = entry w p c &&& mask w := by
  simp [tblRead, directTable]

theorem tblRead_directTable_of_lt {w p : Nat} (hp : p < 2 ^ w) (c : Byte) :
    tblRead (directTable w p) c = entry w p c := by
  rw [tblRead_directTable, and_mask_of_lt (entry_lt hp c)]

@[simp] theorem tblRead_reflectTable (w : Nat) (t : Table) (j : Byte) :
    tblRead (reflectTable w t) j = reflectW (tblRead t (reflect8 j)) w := by
  simp [tblRead, reflectTable, and_mask_of_lt (reflectW_lt _ w)]

theorem cacheLookup_mem {cache : List (CacheKey × Table)} {key : CacheKey} {t : Table}
    (h : cacheLookup cache key = some t) : (key, t) ∈ cache := by
  rw [cacheLookup, Option.map_eq_some_iff] at h
  obtain ⟨e, he, rfl⟩ := h
  have hk : e.1 = key := by simpa using List.find?_some he
  have hm := List.mem_of_find?_eq_some he
  rw [← hk]
  exact hm

theorem cacheLookup_none {cache : List (CacheKey × Table)} {key : CacheKey}
    (h : cacheLookup cache key = none) : key ∉ cache.map Prod.fst := by
  rw [cacheLookup, Option.map_eq_none_iff, List.find?_eq_none] at h
  intro hk
  obtain ⟨e, he, rfl⟩ := List.mem_map.mp hk
  exact h e he (by simp)

theorem cacheInsert_of_hit {m : CacheMode} {cache : List (CacheKey × Table)} {key : CacheKey} {t : Table}
    (h : (cacheLookup cache key).isSome = true) : cacheInsert m cache key t = cache := by
  cases m with
  | uncached => rfl
  | keyed => rw [cacheInsert, if_pos h]

/-- A cache only grows (R58). -/
theorem cacheInsert_extends (m : CacheMode) (cache : List (CacheKey × Table)) (key : CacheKey) (t : Table) :
    ∃ l, cacheInsert m cache key t = cache ++ l := by
  cases m with
  | uncached => exact ⟨[], by simp [cacheInsert]⟩
  | keyed =>
    rw [cacheInsert]
    split
    · exact ⟨[], by simp⟩
    · exact ⟨_, rfl⟩

/-- What a construction leaves (R34, R37, R58). -/
def constructed (key : CacheKey) (s : State) : State :=
  rememberTable key (finishedTable key) (closeBuilder (finishedTable key) s)

theorem builtTable_eq {key : CacheKey} (s : State) (hw : 8 ≤ key.w) (hp : key.p < 2 ^ key.w) :
    builtTable key (runBuilder key (openBuilder s)) = some (finishedTable key) := by
  have hd : builtDirect key (runBuilder key (openBuilder s)) = some (directTable key.w key.p) := by
    cases hb : s.config.buildMethod with
    | bruteForce => simp [builtDirect, runBuilder, openBuilder, hb]
    | chainClosure => simp [builtDirect, runBuilder, openBuilder, hb, chainClosure_table hw hp]
  rw [builtTable, hd, Option.map_some, finishedTable, reflectedTable]

/-- A construction gives the finished table, whatever the method and whether or not a cache holds it (R58,
R140). -/
theorem construct_eq {key : CacheKey} {s : State} (hw : 8 ≤ key.w) (hp : key.p < 2 ^ key.w) (hc : CacheOk s)
    (k : Table → State → StepOutcome) :
    construct key s k = k (finishedTable key) (constructed key s) := by
  cases hl : cachedTable s key with
  | none =>
    simp only [construct, hl, buildInto, builtTable_eq s hw hp, readReg_some]
    rfl
  | some t =>
    have hk : cacheLookup s.cache key = some t := by
      unfold cachedTable at hl
      split at hl
      · cases hl
      · exact hl
    have ht : t = finishedTable key := (hc.1 _ (cacheLookup_mem hk)).1
    have hstay : constructed key s = closeBuilder (finishedTable key) s := by
      have hi : cacheInsert s.config.tableCache s.cache key (finishedTable key) = s.cache :=
        cacheInsert_of_hit (by rw [hk]; rfl)
      simp only [constructed, rememberTable, closeBuilder, hi]
    simp only [construct, hl, hstay, ht]

/-- A construction that answers a next state wrote only TBL, the builder's state and the cache first, and the
cache only grew (R58). -/
theorem construct_next {key : CacheKey} {s t : State} {k : Table → State → StepOutcome}
    (h : construct key s k = .next t) :
    ∃ tab cache, (∃ l, cache = s.cache ++ l) ∧ (s.config.tableCache = .uncached → cache = s.cache) ∧
      k tab { s with tbl := some tab, builder := none, cache := cache } = .next t := by
  unfold construct at h
  split at h
  · exact ⟨_, s.cache, ⟨[], by simp⟩, fun _ => rfl, h⟩
  · obtain ⟨tab, -, hk⟩ := readReg_next h
    exact ⟨tab, _, cacheInsert_extends _ _ _ _, fun hu => by rw [closeBuilder_config, hu]; rfl, hk⟩

/-- A construction keeps the cache's invariant (R58). -/
theorem constructed_cacheOk {key : CacheKey} {s : State} (hw : 8 ≤ key.w) (hw8 : key.w % 8 = 0)
    (hp : key.p < 2 ^ key.w) (hc : CacheOk s) : CacheOk (constructed key s) := by
  obtain ⟨h1, h2, h3⟩ := hc
  cases hm : s.config.tableCache with
  | uncached =>
    have : (constructed key s).cache = s.cache := by simp [constructed, hm, cacheInsert]
    exact ⟨by rw [this]; exact h1, by rw [this]; exact h2, by rw [this]; exact h3⟩
  | keyed =>
    by_cases hl : (cacheLookup s.cache key).isSome
    · have : (constructed key s).cache = s.cache := by simp [constructed, cacheInsert_of_hit hl]
      exact ⟨by rw [this]; exact h1, by rw [this]; exact h2, by rw [this]; exact h3⟩
    · have : (constructed key s).cache = s.cache ++ [(key, finishedTable key)] := by
        simp [constructed, hm, cacheInsert, hl]
      refine ⟨?_, ?_, ?_⟩
      · rw [this]
        intro e he
        rcases List.mem_append.mp he with h | h
        · exact h1 e h
        · rw [List.mem_singleton.mp h]; exact ⟨rfl, hp, hw, hw8⟩
      · rw [this, List.map_append, List.nodup_append]
        refine ⟨h2, by simp, ?_⟩
        intro a ha b hb
        have hkn : key ∉ s.cache.map Prod.fst := cacheLookup_none (by simpa using hl)
        simp only [List.map_cons, List.map_nil, List.mem_singleton] at hb
        rintro rfl
        exact hkn (hb ▸ ha)
      · intro hu
        rw [show (constructed key s).config = s.config from rfl, hm] at hu
        cases hu

/-! ### Delivering a response -/

theorem deliver_ok {s : State} {v : RspValue} (h : s.rspStatus = some .ok) (hv : s.rspValue = some v) :
    deliver s = .next (retire { s with responses := s.responses ++ [{ status := .ok, value := some v }] }) := by
  simp [deliver, h, hv]

theorem deliver_error {s : State} {e : ErrorKind} (h : s.rspStatus = some (.error e)) :
    deliver s = .next (retire { s with responses := s.responses ++ [{ status := .error e, value := none }] }) := by
  simp [deliver, h]

theorem deliver_next {s t : State} (h : deliver s = .next t) :
    ∃ r : Response, s.rspStatus = some r.status ∧
      t = retire { s with responses := s.responses ++ [r] } := by
  unfold deliver at h
  obtain ⟨st, hst, hk⟩ := readReg_next h
  cases st with
  | ok =>
    obtain ⟨v, -, hk'⟩ := readReg_next hk
    cases hk'
    exact ⟨_, hst, rfl⟩
  | error e =>
    cases hk
    exact ⟨_, hst, rfl⟩

end Sys2Proof.Machine
end

