-- ==== Sys2Proof/Laws/Bounds.lean ====
section
/-!
SUPPORT. Every value an operation writes to a register of `w` bits fits in it (spec/70_reset_and_hazards.md R247,
spec/42_crc_engine.md R204), one lemma per operation.
-/

namespace Sys2Proof.Machine

theorem be_lt (l : List Byte) : be l < 2 ^ (8 * l.length) := by
  induction l with
  | nil => simp [be]
  | cons b l ih =>
    have hb : b.toNat < 2 ^ 8 := b.isLt
    rw [be, List.length_cons, Nat.mul_succ, Nat.add_comm (8 * l.length) 8, Nat.pow_add]
    nlinarith [Nat.two_pow_pos (8 * l.length)]

theorem preload_lt (refin : Bool) (w : Nat) (m : List Byte) : preload refin w m < 2 ^ w := by
  refine Nat.lt_of_lt_of_le (be_lt _) (Nat.pow_le_pow_right (by decide) ?_)
  have := List.length_take_le (w / 8) (augmented refin w m)
  omega

theorem finishedTable_lt {key : CacheKey} (hp : key.p < 2 ^ key.w) (c : Byte) :
    tblRead (finishedTable key) c < 2 ^ key.w := by
  unfold finishedTable
  split
  · rw [reflectedTable, tblRead_reflectTable]
    exact reflectW_lt _ _
  · rw [tblRead_directTable_of_lt hp]
    exact entry_lt hp c

theorem directTable_lt {w p : Nat} (hp : p < 2 ^ w) (c : Byte) : tblRead (directTable w p) c < 2 ^ w :=
  finishedTable_lt (key := { p := p, w := w, reflected := false }) hp c

theorem reflectedTable_lt {w p : Nat} (hp : p < 2 ^ w) (c : Byte) : tblRead (reflectedTable w p) c < 2 ^ w :=
  finishedTable_lt (key := { p := p, w := w, reflected := true }) hp c

theorem bitstep_eq (w p r bit : Nat) :
    bitstep w p r bit = (((r <<< 1) ||| bit) &&& mask w) ^^^ (if r.testBit (w - 1) then p else 0) := by
  by_cases h : r.testBit (w - 1) = true
  · simp [bitstep, (msb_eq_one w r).mpr h, h]
  · have h' : ¬ msb w r = 1 := fun e => h ((msb_eq_one w r).mp e)
    simp [bitstep, h', h]

theorem bitstep_lt {w p : Nat} (hp : p < 2 ^ w) (r bit : Nat) : bitstep w p r bit < 2 ^ w := by
  rw [bitstep_eq]
  apply Nat.xor_lt_two_pow (and_mask_lt _ _)
  split
  · exact hp
  · exact Nat.two_pow_pos w

theorem tableStep_lt {w p : Nat} (hp : p < 2 ^ w) (r : Nat) (a : Byte) :
    tableStep w (directTable w p) r a < 2 ^ w :=
  Nat.xor_lt_two_pow (and_mask_lt _ _) (directTable_lt hp _)

theorem optimizedStep_lt {w p : Nat} (hp : p < 2 ^ w) (r : Nat) (b : Byte) :
    optimizedStep w (directTable w p) r b < 2 ^ w :=
  Nat.xor_lt_two_pow (and_mask_lt _ _) (directTable_lt hp _)

theorem reflectedStep_lt {w p r : Nat} (hp : p < 2 ^ w) (hr : r < 2 ^ w) (c : Byte) :
    reflectedStep (reflectedTable w p) r c < 2 ^ w := by
  refine Nat.xor_lt_two_pow ?_ (reflectedTable_lt hp _)
  rw [Nat.shiftRight_eq_div_pow]
  exact Nat.lt_of_le_of_lt (Nat.div_le_self _ _) hr

theorem finish_lt {w x r : Nat} (flip : Bool) (hx : x < 2 ^ w) (hr : r < 2 ^ w) : finish flip w x r < 2 ^ w := by
  refine Nat.xor_lt_two_pow ?_ hx
  split
  · exact reflectW_lt _ _
  · exact hr

end Sys2Proof.Machine
end

