-- ==== Sys2Proof/Laws/Steps.lean ====
section
/-!
SUPPORT. What a step is: reset when the input is asserted, otherwise the phase's step on the state whose sample
of the input is taken; what decoding a word can give; and legal and illegal operands in the claims' terms.
-/

namespace Sys2Proof.Machine

/-! ### The step -/

theorem step_of_clear {s : State} (h : ResetClear s) : step s = advance (dropPin s) := by
  unfold step tick
  split
  · rename_i heq
    exact absurd (by rw [heq]; rfl) h
  · rfl

theorem step_of_reset {s : State} (h : s.resetPin.head? = some true) :
    step s = .next (assertReset (dropPin s)) := by
  unfold step tick
  cases hp : s.resetPin with
  | nil => rw [hp] at h; cases h
  | cons b l =>
    rw [hp] at h
    cases h
    rfl

theorem advance_idle {s : State} (h : s.phase = .idle) : advance s = acceptNext s := by simp [advance, h]
theorem advance_init {s : State} (h : s.phase = .init) : advance s = stepInit s := by simp [advance, h]
theorem advance_consume {s : State} (h : s.phase = .consume) : advance s = stepConsume s := by
  simp [advance, h]
theorem advance_final {s : State} (h : s.phase = .final) : advance s = stepFinal s := by simp [advance, h]
theorem advance_done {s : State} (h : s.phase = .done) : advance s = deliver s := by simp [advance, h]

/-- The quiet steps to come, one at a time. -/
theorem quiet_succ {n : Nat} {s : State} (h : Quiet (n + 1) s) : ResetClear s ∧ Quiet n (dropPin s) := by
  unfold Quiet ResetClear at *
  cases hp : s.resetPin with
  | nil => simp [hp]
  | cons b l =>
    rw [hp, List.take_succ_cons] at h
    have hb := h b List.mem_cons_self
    refine ⟨by simp [hb], fun x hx => h x (List.mem_cons_of_mem b ?_)⟩
    simpa [hp] using hx

/-- A run of `n + 1` steps is a step and a run of `n`. -/
theorem run_succ {n : Nat} {s t : State} (h : step s = .next t) :
    Host.Core.run Sys2Proof.core (n + 1) s = Host.Core.run Sys2Proof.core n t := by
  have hs : Sys2Proof.core.step s = .next t := h
  simp only [Host.Core.run, hs]

/-- A run that answers a next state began with a step that did. -/
theorem run_succ_next {n : Nat} {s t : State} (h : Host.Core.run Sys2Proof.core (n + 1) s = .next t) :
    ∃ u, step s = .next u ∧ Host.Core.run Sys2Proof.core n u = .next t := by
  cases hs : step s with
  | next u => exact ⟨u, rfl, run_succ hs ▸ h⟩
  | fault f =>
    have hs' : Sys2Proof.core.step s = .fault f := hs
    simp only [Host.Core.run, hs', reduceCtorEq] at h
  | refused ρ =>
    have hs' : Sys2Proof.core.step s = .refused ρ := hs
    simp only [Host.Core.run, hs', reduceCtorEq] at h

/-- A run of `m + n` steps is a run of `m` and a run of `n`. -/
theorem run_add {m n : Nat} {s t : State} (h : Host.Core.run Sys2Proof.core m s = .next t) :
    Host.Core.run Sys2Proof.core (m + n) s = Host.Core.run Sys2Proof.core n t := by
  induction m generalizing s with
  | zero =>
    cases h
    rw [Nat.zero_add]
  | succ m ih =>
    obtain ⟨u, hs, hr⟩ := run_succ_next h
    rw [Nat.add_right_comm, run_succ hs, ih hr]

/-! ### Command words -/

/-- What a command word spells, and when it is reserved (R81 and R93 agree). -/
theorem decodeWord_cases (c : CmdWord) :
    (CmdWord.wf c = false ∧ decodeWord c = .error (.reserved c)) ∨
    (CmdWord.wf c = true ∧
      ((c = 0x10 ∧ decodeWord c = .ok .rfb) ∨ (c = 0x20 ∧ decodeWord c = .ok .rfw) ∨
       (c = 0x30 ∧ decodeWord c = .ok .rfs) ∨ (c = 0x40 ∧ decodeWord c = .ok (.bld false)) ∨
       (c = 0x41 ∧ decodeWord c = .ok (.bld true)) ∨ (c = 0x80 ∧ decodeWord c = .ok (.crc .bitSerial)) ∨
       (c = 0x81 ∧ decodeWord c = .ok (.crc .table)) ∨ (c = 0x82 ∧ decodeWord c = .ok (.crc .optimizedTable)) ∨
       (c = 0x83 ∧ decodeWord c = .ok (.crc .reflectedTable)))) := by
  revert c; decide +kernel

/-! ### Legal and illegal operands -/

theorem legalWidth_of_legal {k : Config} {w : Nat} (h : LegalWidth k w) :
    legalWidth k (some (w : Int)) = some w :=
  legalWidth_of_allowed ((widthAllowed_iff k w).mpr h)

theorem legal_of_legalWidth {k : Config} {v : WidthPort} {w : Nat} (h : legalWidth k v = some w) :
    v = some (w : Int) ∧ LegalWidth k w :=
  ⟨(legalWidth_some h).1, (widthAllowed_iff k w).mp (legalWidth_some h).2⟩

theorem legalWidth_of_illegal {k : Config} {v : WidthPort} (h : IllegalWidth k v) : legalWidth k v = none := by
  by_contra hne
  obtain ⟨w, hw⟩ := Option.ne_none_iff_exists'.mp hne
  obtain ⟨rfl, h1, h2, h3⟩ := legal_of_legalWidth hw
  rcases h with h | ⟨n, hn, h⟩
  · cases h
  · cases hn
    rcases h with h | h | ⟨m, hm, h⟩
    · omega
    · omega
    · have := h3 m hm
      omega

theorem validBytes_byteElems (m : List Byte) : validBytes (byteElems m) = some m := (validBytes_iff _ _).mpr rfl

theorem validBytes_of_invalid {l : List Elem} (h : HasInvalidElem l) : validBytes l = none := by
  by_contra hne
  obtain ⟨m, hm⟩ := Option.ne_none_iff_exists'.mp hne
  rw [validBytes_iff] at hm
  subst hm
  obtain ⟨e, he, hx⟩ := h
  obtain ⟨b, -, rfl⟩ := List.mem_map.mp he
  rcases hx with hx | ⟨n, hn, hx⟩
  · cases hx
  · cases hn
    have := b.isLt
    omega

/-! ### Building -/

/-- A build with a legal width responds with the finished table (R134, R138, R140). -/
theorem buildRequest_legal {s : State} {reflected : Bool} {poly w : Nat} {v : WidthPort} (hc : CacheOk s)
    (hw : legalWidth s.config v = some w) :
    buildRequest reflected poly v s =
      .next (respond (.table (finishedTable { p := poly &&& mask w, w := w, reflected := reflected }))
        (constructed { p := poly &&& mask w, w := w, reflected := reflected }
          { s with cfgW := some w, cfgP := some (poly &&& mask w) })) := by
  have h8 := ((widthAllowed_iff _ _).mp (legalWidth_some hw).2).1
  have hc' : CacheOk { s with cfgW := some w, cfgP := some (poly &&& mask w) } := hc
  simp only [buildRequest, hw]
  exact construct_eq (key := { p := poly &&& mask w, w := w, reflected := reflected }) h8 (and_mask_lt _ _) hc' _

theorem buildRequest_illegal {s : State} {reflected : Bool} {poly : Nat} {v : WidthPort}
    (hw : legalWidth s.config v = none) :
    buildRequest reflected poly v s = .next (raise .invalidTableRequest s) := by
  simp only [buildRequest, hw]

/-! ### The invariant -/

theorem clear_or_reset (s : State) : ResetClear s ∨ s.resetPin.head? = some true := (em _).symm

theorem decodeWord_crcWord (algo : Algo) : decodeWord (crcWord algo) = .ok (.crc algo) := by cases algo <;> rfl

/-- After INIT or CONSUME the registers hold what CONSUME or FINAL needs. -/
theorem phaseOk_nextPhase {s : State} {l : Latched} {more : Bool} {k : Nat} (hp : s.phase = nextPhase more)
    (hh : Holds s l) (hl : LegalCfg s.config l.cfg) (ht : TblOk s l) (hr : RegOk s l) (hk : s.idx = some k)
    (hm : more = true → firstIdx l ≤ k ∧ k < streamLen l) (hf : more = false → k = streamLen l)
    (hb : l.algo = .bitSerial → ∃ b, s.bitpos = some b) (hn : NoResponse s) : PhaseOk s := by
  unfold PhaseOk
  cases more with
  | false =>
    rw [hp]
    exact ⟨l, hh, hl, ht, hr, by rw [hk, hf rfl], hn⟩
  | true =>
    rw [hp]
    exact ⟨l, hh, hl, ht, hr, ⟨k, hk, hm rfl⟩, hb, hn⟩

end Sys2Proof.Machine
end

