-- ==== Sys2Proof/Laws/Sequencer.lean ====
section
/-!
SUPPORT. Everything a step of each phase can do, said once: if it answers a next state, that state is the old one
with these fields written and no other.
-/

namespace Sys2Proof.Machine

/-- A cache that grew, and not at all in a realisation without one (R58). -/
def CacheGrew (s : State) (cache : List (CacheKey × Table)) : Prop :=
  (∃ l, cache = s.cache ++ l) ∧ (s.config.tableCache = .uncached → cache = s.cache)

theorem CacheGrew.refl (s : State) : CacheGrew s s.cache := ⟨⟨[], by simp⟩, fun _ => rfl⟩

/-- INIT writes REG, IDX, PHASE, for BitSerial BITPOS, and otherwise TBL and the cache. -/
theorem stepInit_next {s t : State} (h : stepInit s = .next t) :
    ∃ r k b tab bld cache more, CacheGrew s cache ∧
      t = { s with
        reg := some r, idx := some k, bitpos := b, tbl := tab, builder := bld, cache := cache
        phase := nextPhase more } := by
  obtain ⟨a, -, h⟩ := readReg_next h
  cases a with
  | bitSerial =>
    obtain ⟨w, -, h⟩ := readReg_next h
    obtain ⟨i, -, h⟩ := readReg_next h
    obtain ⟨refin, -, h⟩ := readReg_next h
    obtain ⟨m, -, h⟩ := readReg_next h
    cases h
    exact ⟨_, _, _, _, _, _, _, CacheGrew.refl s, rfl⟩
  | table =>
    obtain ⟨w, -, h⟩ := readReg_next h
    obtain ⟨p, -, h⟩ := readReg_next h
    obtain ⟨i, -, h⟩ := readReg_next h
    obtain ⟨refin, -, h⟩ := readReg_next h
    obtain ⟨m, -, h⟩ := readReg_next h
    obtain ⟨tab, cache, hg, hu, h⟩ := construct_next h
    cases h
    exact ⟨_, _, _, _, _, _, _, ⟨hg, hu⟩, rfl⟩
  | optimizedTable =>
    obtain ⟨w, -, h⟩ := readReg_next h
    obtain ⟨p, -, h⟩ := readReg_next h
    obtain ⟨i, -, h⟩ := readReg_next h
    obtain ⟨m, -, h⟩ := readReg_next h
    obtain ⟨tab, cache, hg, hu, h⟩ := construct_next h
    cases h
    exact ⟨_, _, _, _, _, _, _, ⟨hg, hu⟩, rfl⟩
  | reflectedTable =>
    obtain ⟨w, -, h⟩ := readReg_next h
    obtain ⟨p, -, h⟩ := readReg_next h
    obtain ⟨i, -, h⟩ := readReg_next h
    obtain ⟨m, -, h⟩ := readReg_next h
    obtain ⟨tab, cache, hg, hu, h⟩ := construct_next h
    cases h
    exact ⟨_, _, _, _, _, _, _, ⟨hg, hu⟩, rfl⟩

/-- CONSUME writes REG, IDX, PHASE and, for BitSerial, BITPOS. -/
theorem stepConsume_next {s t : State} (h : stepConsume s = .next t) :
    ∃ r k b more, t = { s with reg := some r, idx := some k, bitpos := b, phase := nextPhase more } := by
  obtain ⟨a, -, h⟩ := readReg_next h
  cases a with
  | bitSerial =>
    obtain ⟨w, -, h⟩ := readReg_next h
    obtain ⟨p, -, h⟩ := readReg_next h
    obtain ⟨refin, -, h⟩ := readReg_next h
    obtain ⟨m, -, h⟩ := readReg_next h
    obtain ⟨idx, -, h⟩ := readReg_next h
    obtain ⟨bp, -, h⟩ := readReg_next h
    obtain ⟨r, -, h⟩ := readReg_next h
    obtain ⟨a, -, h⟩ := readStream_next h
    cases h
    exact ⟨_, _, _, _, rfl⟩
  | table =>
    obtain ⟨w, -, h⟩ := readReg_next h
    obtain ⟨refin, -, h⟩ := readReg_next h
    obtain ⟨m, -, h⟩ := readReg_next h
    obtain ⟨idx, -, h⟩ := readReg_next h
    obtain ⟨r, -, h⟩ := readReg_next h
    obtain ⟨tab, -, h⟩ := readReg_next h
    obtain ⟨a, -, h⟩ := readStream_next h
    cases h
    exact ⟨_, _, _, _, rfl⟩
  | optimizedTable =>
    obtain ⟨w, -, h⟩ := readReg_next h
    obtain ⟨refin, -, h⟩ := readReg_next h
    obtain ⟨m, -, h⟩ := readReg_next h
    obtain ⟨idx, -, h⟩ := readReg_next h
    obtain ⟨r, -, h⟩ := readReg_next h
    obtain ⟨tab, -, h⟩ := readReg_next h
    obtain ⟨a, -, h⟩ := readStream_next h
    cases h
    exact ⟨_, _, _, _, rfl⟩
  | reflectedTable =>
    obtain ⟨refin, -, h⟩ := readReg_next h
    obtain ⟨m, -, h⟩ := readReg_next h
    obtain ⟨idx, -, h⟩ := readReg_next h
    obtain ⟨r, -, h⟩ := readReg_next h
    obtain ⟨tab, -, h⟩ := readReg_next h
    obtain ⟨a, -, h⟩ := readStream_next h
    cases h
    exact ⟨_, _, _, _, rfl⟩

/-- FINAL writes the response and PHASE. -/
theorem stepFinal_next {s t : State} (h : stepFinal s = .next t) : ∃ n, t = respond (.nat n) s := by
  obtain ⟨a, -, h⟩ := readReg_next h
  obtain ⟨w, -, h⟩ := readReg_next h
  obtain ⟨refout, -, h⟩ := readReg_next h
  obtain ⟨x, -, h⟩ := readReg_next h
  obtain ⟨r, -, h⟩ := readReg_next h
  cases h
  exact ⟨_, rfl⟩

/-- An instruction is accepted in IDLE only, and writes neither the host's side nor the parameters; the cache only
grows. -/
theorem exec_next {i : Instr} {s t : State} (h : exec i s = .next t) :
    s.phase = .idle ∧ t.config = s.config ∧ t.script = s.script ∧ t.responses = s.responses ∧
      t.resetPin = s.resetPin ∧ CacheGrew s t.cache := by
  have build : ∀ cmd reflected poly width, accept cmd s (buildRequest reflected poly width) = .next t →
      s.phase = .idle ∧ t.config = s.config ∧ t.script = s.script ∧ t.responses = s.responses ∧
        t.resetPin = s.resetPin ∧ CacheGrew s t.cache := by
    intro cmd reflected poly width h
    obtain ⟨hp, h⟩ := accept_next h
    unfold buildRequest at h
    split at h
    · cases h
      exact ⟨hp, rfl, rfl, rfl, rfl, CacheGrew.refl s⟩
    · obtain ⟨tab, cache, hg, hu, h⟩ := construct_next h
      cases h
      exact ⟨hp, rfl, rfl, rfl, rfl, hg, hu⟩
  have crc : ∀ cmd o, acceptCrc cmd o s = .next t →
      s.phase = .idle ∧ t.config = s.config ∧ t.script = s.script ∧ t.responses = s.responses ∧
        t.resetPin = s.resetPin ∧ CacheGrew s t.cache := by
    intro cmd o h
    have hp := (accept_next h).1
    rcases acceptCrc_cases cmd o hp with ⟨_, e⟩ | ⟨_, _, _, e⟩ | ⟨_, _, _, _, e⟩ <;> rw [e] at h <;> cases h <;>
      exact ⟨hp, rfl, rfl, rfl, rfl, CacheGrew.refl s⟩
  cases i with
  | rfb b =>
    simp only [exec, execRfb] at h
    obtain ⟨hp, h⟩ := accept_next h
    cases h
    exact ⟨hp, rfl, rfl, rfl, rfl, CacheGrew.refl s⟩
  | rfw x n =>
    simp only [exec, execRfw] at h
    obtain ⟨hp, h⟩ := accept_next h
    cases h
    exact ⟨hp, rfl, rfl, rfl, rfl, CacheGrew.refl s⟩
  | rfs seq =>
    simp only [exec, execRfs] at h
    obtain ⟨hp, h⟩ := accept_next h
    split at h <;> cases h <;> exact ⟨hp, rfl, rfl, rfl, rfl, CacheGrew.refl s⟩
  | bldD poly width => exact build _ _ _ _ h
  | bldR poly width => exact build _ _ _ _ h
  | crcBS o => exact crc _ _ h
  | crcTB o => exact crc _ _ h
  | crcOT o => exact crc _ _ h
  | crcRT o => exact crc _ _ h

/-- IDLE without a request does nothing; with one it is the instruction on the state whose script has lost it. -/
theorem acceptNext_next {s t : State} (h : acceptNext s = .next t) :
    (s.script = [] ∧ t = s) ∨
    ∃ r rest i, s.script = r :: rest ∧ decode r = .ok i ∧ exec i { s with script := rest } = .next t := by
  unfold acceptNext at h
  split at h
  · cases h
    exact .inl ⟨by assumption, rfl⟩
  · split at h
    · exact .inr ⟨_, _, _, by assumption, by assumption, h⟩
    · cases h

/-- What the length of the augmented stream is (R166). -/
theorem augmented_length (refin : Bool) (w : Nat) (m : List Byte) :
    (augmented refin w m).length = m.length + w / 8 := by
  simp [augmented, effective, zeros]

end Sys2Proof.Machine
end

