-- ==== Sys2Proof/Laws/PerInstr.lean ====
section
/-!
SUPPORT. Statements made per instruction, one lemma per constructor of `Instr`.
-/

namespace Sys2Proof.Laws

/-- The encoder writes a command word that is not reserved (R90), whose CLASS says which component runs it and
whose SUB carries the `reflected` flag or the algorithm (R81, R88). -/
def EncodedFields.Statement (i : Instr) : Prop :=
  (encode i).wf = true ∧
  match i with
  | .rfb _ => CmdWord.cls (encode i).cmd = 0x1 ∧ CmdWord.sub (encode i).cmd = 0
  | .rfw _ _ => CmdWord.cls (encode i).cmd = 0x2 ∧ CmdWord.sub (encode i).cmd = 0
  | .rfs _ => CmdWord.cls (encode i).cmd = 0x3 ∧ CmdWord.sub (encode i).cmd = 0
  | .bldD _ _ => CmdWord.cls (encode i).cmd = 0x4 ∧ CmdWord.sub (encode i).cmd = 0
  | .bldR _ _ => CmdWord.cls (encode i).cmd = 0x4 ∧ CmdWord.sub (encode i).cmd = 1
  | .crcBS _ => CmdWord.cls (encode i).cmd = 0x8 ∧ CmdWord.sub (encode i).cmd = 0
  | .crcTB _ => CmdWord.cls (encode i).cmd = 0x8 ∧ CmdWord.sub (encode i).cmd = 1
  | .crcOT _ => CmdWord.cls (encode i).cmd = 0x8 ∧ CmdWord.sub (encode i).cmd = 2
  | .crcRT _ => CmdWord.cls (encode i).cmd = 0x8 ∧ CmdWord.sub (encode i).cmd = 3

theorem EncodedFields.rfb (b : Byte) : EncodedFields.Statement (.rfb b) := by
  simp only [EncodedFields.Statement, Request.wf, encode, encodeWord]; decide
theorem EncodedFields.rfw (x n : Nat) : EncodedFields.Statement (.rfw x n) := by
  simp only [EncodedFields.Statement, Request.wf, encode, encodeWord]; decide
theorem EncodedFields.rfs (seq : List Elem) : EncodedFields.Statement (.rfs seq) := by
  simp only [EncodedFields.Statement, Request.wf, encode, encodeWord]; decide
theorem EncodedFields.bldD (poly : Nat) (width : WidthPort) : EncodedFields.Statement (.bldD poly width) := by
  simp only [EncodedFields.Statement, Request.wf, encode, encodeWord]; decide
theorem EncodedFields.bldR (poly : Nat) (width : WidthPort) : EncodedFields.Statement (.bldR poly width) := by
  simp only [EncodedFields.Statement, Request.wf, encode, encodeWord]; decide
theorem EncodedFields.crcBS (o : CrcOperands) : EncodedFields.Statement (.crcBS o) := by
  simp only [EncodedFields.Statement, Request.wf, encode, encodeWord]; decide
theorem EncodedFields.crcTB (o : CrcOperands) : EncodedFields.Statement (.crcTB o) := by
  simp only [EncodedFields.Statement, Request.wf, encode, encodeWord]; decide
theorem EncodedFields.crcOT (o : CrcOperands) : EncodedFields.Statement (.crcOT o) := by
  simp only [EncodedFields.Statement, Request.wf, encode, encodeWord]; decide
theorem EncodedFields.crcRT (o : CrcOperands) : EncodedFields.Statement (.crcRT o) := by
  simp only [EncodedFields.Statement, Request.wf, encode, encodeWord]; decide

end Sys2Proof.Laws
end

