-- ==== Sys2Proof/Tests/Slice0.lean ====
section
/-!
SUPPORT. Tests against the spec's own examples (spec/95_test_vectors.md, cited by its numbers L<i>-<j>), the words
of spec/30_encoding.md R87 written out, and for every obligation with hypotheses a witness that meets them.
-/

namespace Sys2Proof.Machine.Tests

/-! ### Small states and readings -/

/-- The ASCII bytes of "123456789" (spec/95_test_vectors.md). -/
def check9 : List Byte := [0x31, 0x32, 0x33, 0x34, 0x35, 0x36, 0x37, 0x38, 0x39]

/-- A request with every port at zero. -/
def bare (cmd : CmdWord) : Request := { cmd := cmd, ports := Ports.zero }

/-- The reset state with a script. -/
def issuing (script : List Request) : State := { State.reset with script := script }

/-- A latched request in a phase, with the later registers given. -/
def holding (phase : Phase) (l : Latched) : State :=
  { State.reset with
    phase := phase, cmd := some (crcWord l.algo), cfgW := some l.cfg.w, cfgP := some l.cfg.p
    cfgI := some l.cfg.i, cfgX := some l.cfg.x, cfgRefin := some l.cfg.refin, cfgRefout := some l.cfg.refout
    cfgAlgo := some l.algo, msg := some l.msg }

/-- Poly 0x07, width 8, init 0, no reflection, xorout 0 (L2-6, S8). -/
def s8 : CrcCfg := { w := 8, p := 0x07, i := 0, x := 0, refin := false, refout := false }

/-- The CRC-32 configuration (L1-2). -/
def crc32 : CrcCfg :=
  { w := 32, p := 0x04C11DB7, i := 0xFFFFFFFF, x := 0xFFFFFFFF, refin := true, refout := true }

/-- The CRC-16/ARC configuration (L1-4). -/
def arc : CrcCfg := { w := 16, p := 0x8005, i := 0, x := 0, refin := true, refout := true }

/-- The operands of S8 with a message. -/
def s8Operands (width : WidthPort) (msg : List Elem) : CrcOperands :=
  { poly := 0x07, width := width, init := 0, refin := false, refout := false, xorout := 0, msg := msg }

/-- The state a step answers, if it answers one. -/
def nextOf (o : StepOutcome) : Option State :=
  match o with
  | .next t => some t
  | _ => none

/-- PHASE, RSP.STATUS and RSP.VALUE of the state a step answers. -/
def answer (o : StepOutcome) : Option (Phase × Option Status × Option RspValue) :=
  (nextOf o).map fun t => (t.phase, t.rspStatus, t.rspValue)

/-- Entries of the table in RSP.VALUE. -/
def entriesOf (o : StepOutcome) (cs : List Byte) : Option (List Nat) :=
  match (nextOf o).bind State.rspValue with
  | some (.table t) => some (cs.map (tblRead t))
  | _ => none

/-- PHASE, REG, IDX and BITPOS of the state a step answers. -/
def regs (o : StepOutcome) : Option (Phase × Option Nat × Option Nat × Option (Fin 8)) :=
  (nextOf o).map fun t => (t.phase, t.reg, t.idx, t.bitpos)

/-! ### Well-formedness: ill-formed words, one for each check of `CmdWord.wf` (L2-7) -/

theorem test_wf_class_zero : Request.wf (bare 0x00) = false := by decide
theorem test_wf_rfb_sub : Request.wf (bare 0x11) = false := by decide
theorem test_wf_rfw_sub : Request.wf (bare 0x21) = false := by decide
theorem test_wf_rfs_sub : Request.wf (bare 0x3F) = false := by decide
theorem test_wf_bld_sub : Request.wf (bare 0x42) = false := by decide
theorem test_wf_crc_sub : Request.wf (bare 0x84) = false ∧ Request.wf (bare 0x8F) = false := by decide
theorem test_wf_class_high : Request.wf (bare 0xFF) = false := by decide
theorem test_wf_script : Script.wf [bare 0x10, bare 0x84] = false ∧ Script.wf [bare 0x10, bare 0x83] = true := by
  decide

/-! ### Decoding: the words of R87 written out, CLASS then SUB (R81) -/

theorem test_decode_rfb : decode { bare 0b0001_0000 with ports := { Ports.zero with b := 0x31 } } =
    .ok (.rfb 0x31) := by decide
theorem test_decode_rfw : decode { bare 0b0010_0000 with ports := { Ports.zero with x := 6, n := 3 } } =
    .ok (.rfw 6 3) := by decide
theorem test_decode_rfs : decode { bare 0b0011_0000 with ports := { Ports.zero with seq := [.int 1] } } =
    .ok (.rfs [.int 1]) := by decide
theorem test_decode_bldD : decode { bare 0b0100_0000 with ports := { Ports.zero with poly := 7, width := none } } =
    .ok (.bldD 7 none) := by decide
theorem test_decode_bldR : decode { bare 0b0100_0001 with ports := { Ports.zero with poly := 7, width := some 8 } } =
    .ok (.bldR 7 (some 8)) := by decide
theorem test_decode_crcBS :
    decode { bare 0b1000_0000 with ports := { Ports.zero with poly := 7, width := some 8, msg := [.int 0x31] } } =
    .ok (.crcBS (s8Operands (some 8) [.int 0x31])) := by decide
theorem test_decode_crcTB :
    decode { bare 0b1000_0001 with ports := { Ports.zero with poly := 7, width := some 8, msg := [.int 0x31] } } =
    .ok (.crcTB (s8Operands (some 8) [.int 0x31])) := by decide
theorem test_decode_crcOT :
    decode { bare 0b1000_0010 with ports := { Ports.zero with poly := 7, width := some 8, msg := [.int 0x31] } } =
    .ok (.crcOT (s8Operands (some 8) [.int 0x31])) := by decide
theorem test_decode_crcRT :
    decode { bare 0b1000_0011 with ports := { Ports.zero with poly := 7, width := some 8, msg := [.int 0x31] } } =
    .ok (.crcRT (s8Operands (some 8) [.int 0x31])) := by decide
theorem test_decode_reserved : decode (bare 0x42) = .error (.reserved 0x42) := by decide

/-- Every row of the opcode table decodes; a word of another length is no request. -/
theorem test_table_words :
    [0x10, 0x20, 0x30, 0x40, 0x41, 0x80, 0x81, 0x82, 0x83].all (fun w => (decodeTableWord 8 w).isSome) = true ∧
    decodeTableWord 16 0x10 = none ∧ decodeTableWord 8 0x11 = none := by decide

/-- `withFetchWord` after reset: the next step runs the word (here RFB with B = 0, L2-1). -/
theorem test_fetch_word :
    answer (step (State.reset.withFetchWord 8 0x10)) = some (.done, some .ok, some (.byte 0x00)) := by
  decide +kernel

/-! ### BitReflector (L2-1, L2-2, L2-3) -/

theorem test_rfb : answer (exec (.rfb 0x31) State.reset) = some (.done, some .ok, some (.byte 0x8C)) := by
  decide +kernel
theorem test_rfw : answer (exec (.rfw 0xB704CE 24) State.reset) = some (.done, some .ok, some (.nat 0x7320ED)) := by
  decide +kernel
theorem test_rfw_masks : answer (exec (.rfw 0x1FFFF 16) State.reset) = some (.done, some .ok, some (.nat 0xFFFF)) ∧
    answer (exec (.rfw 0x5 0) State.reset) = some (.done, some .ok, some (.nat 0)) := by
  decide +kernel
theorem test_rfs : answer (exec (.rfs [.int 0x31, .int 0x32, .int 0x33]) State.reset) =
    some (.done, some .ok, some (.bytes [0x8C, 0x4C, 0xCC])) := by
  decide +kernel
theorem test_rfs_invalid : answer (exec (.rfs [.int 0xFF, .int 256]) State.reset) =
    some (.done, some (.error .invalidMessageElement), none) := by
  decide +kernel

/-! ### TableBuilder (L2-4, L2-5), with both building methods -/

/-- The reset state of a realisation with the given parameters. -/
def realisation (wMax : Option Nat) (cache : CacheMode) (method : BuildMethod) : State :=
  { State.reset with config := { wMax := wMax, tableCache := cache, buildMethod := method } }

theorem test_bldD : entriesOf (exec (.bldD 0x104C11DB7 (some 32)) State.reset) [0, 1, 2, 3, 0x80, 0xFF] =
    some [0, 0x04C11DB7, 0x09823B6E, 0x0D4326D9, 0x690CE0EE, 0xB1F740B4] := by
  decide +kernel
theorem test_bldR : entriesOf (exec (.bldR 0x04C11DB7 (some 32)) State.reset) [0, 1, 0x80, 0xFF] =
    some [0, 0x77073096, 0xEDB88320, 0x2D02EF8D] := by
  decide +kernel
theorem test_bldR_width_above_wMax :
    answer (exec (.bldR 0x1 (some 72)) (realisation (some 64) .uncached .bruteForce)) =
    some (.done, some (.error .invalidTableRequest), none) := by
  decide +kernel

/-- The chain-closure method, 16 steps of the first chain of L3-7: CR, END, and the slots 0x02, 0x07 and 0x15. -/
theorem test_chain_first_steps :
    (fun sc : Vector SlotStatus 256 × Chain =>
      (sc.2.cr, sc.2.k, sc.2.chainEnd, slotAt sc.1 0x02, slotAt sc.1 0x07, slotAt sc.1 0x15))
      (runChain 8 0x07 16 (setSlot Builder.start.slot 0x01 .inProgress, Chain.seeded 8 0x01)) =
    (0x15, 16, 24, .resolved 0x0E, .resolved 0x15, .inProgress) := by
  decide +kernel

/-- With POLY = 0 a chain costs 8 steps (R143). -/
theorem test_chain_zero_poly : Builder.start.stepsFrom 16 0 0x01 = 8 := by decide +kernel

/-! ### CrcEngine: accepting (L2-6, L3-1) -/

theorem test_crcBS_accept :
    (nextOf (exec (.crcBS (s8Operands (some 8) [.int 0x31])) State.reset)) =
      some (holding .init { cfg := s8, algo := .bitSerial, msg := [0x31] }) := by
  decide +kernel
theorem test_crcTB_masks :
    (nextOf (exec (.crcTB { s8Operands (some 8) [] with poly := 0x107, init := 0x1FF, xorout := 0x3F0 })
      State.reset)).map (fun t => (t.cfgP, t.cfgI, t.cfgX)) = some (some 0x07, some 0xFF, some 0xF0) := by
  decide +kernel
theorem test_crcOT_invalid_width :
    answer (exec (.crcOT (s8Operands (some 7) [.int 256])) State.reset) =
      some (.done, some (.error .invalidWidth), none) := by
  decide +kernel
theorem test_crcRT_invalid_element :
    answer (exec (.crcRT (s8Operands (some 8) [.int 0x31, .int 0x32, .int 256])) State.reset) =
      some (.done, some (.error .invalidMessageElement), none) := by
  decide +kernel

/-! ### CrcEngine: the sequencer, one step of the traces of L3 -/

/-- L3-6: the preload of a message shorter than the register. -/
theorem test_init_bitSerial :
    regs (step (holding .init { cfg := ccittCfg, algo := .bitSerial, msg := [0x31] })) =
      some (.consume, some 0xCEFF, some 2, some 7) := by
  decide +kernel
/-- L3-1, step 10: the last bit, and FINAL. -/
theorem test_consume_bitSerial :
    regs (step { holding .consume { cfg := s8, algo := .bitSerial, msg := [0x31] } with
      reg := some 0xC8, idx := some 1, bitpos := some 0 }) = some (.final, some 0x97, some 2, some 7) := by
  decide +kernel
/-- L3-2, steps 2 and 3. -/
theorem test_init_table :
    regs (step (holding .init { cfg := ccittCfg, algo := .table, msg := [0x31, 0x32] })) =
      some (.consume, some 0xCECD, some 2, none) := by
  decide +kernel
theorem test_consume_table :
    regs (step { holding .consume { cfg := ccittCfg, algo := .table, msg := [0x31, 0x32] } with
      reg := some 0xCECD, idx := some 2, tbl := some (directTable 16 0x1021) }) =
      some (.consume, some 0xF582, some 3, none) := by
  decide +kernel
/-- L3-4, the first byte. -/
theorem test_consume_optimized :
    regs (step { holding .consume { cfg := crc32, algo := .optimizedTable, msg := [0x31, 0x32] } with
      reg := some 0xFFFFFFFF, idx := some 0, tbl := some (directTable 32 0x04C11DB7) }) =
      some (.consume, some 0x1208C43E, some 1, none) := by
  decide +kernel
theorem test_consume_reflected :
    regs (step { holding .consume { cfg := crc32, algo := .reflectedTable, msg := [0x31, 0x32] } with
      reg := some 0xFFFFFFFF, idx := some 0, tbl := some (reflectedTable 32 0x04C11DB7) }) =
      some (.consume, some 0x7C231048, some 1, none) := by
  decide +kernel
/-- L3-5: FINAL of ReflectedTable with refout = 0. -/
theorem test_final_reflected :
    answer (step { holding .final { cfg := ccittCfg, algo := .reflectedTable, msg := [0x31, 0x32] } with
      reg := some 0x5DBC, idx := some 2 }) = some (.done, some .ok, some (.nat 0x3DBA)) := by
  decide +kernel
/-- L3-4: FINAL of OptimizedTable with refout = 1. -/
theorem test_final_optimized :
    answer (step { holding .final { cfg := crc32, algo := .optimizedTable, msg := check9 } with
      reg := some 0x9B63D02C, idx := some 9 }) = some (.done, some .ok, some (.nat 0xCBF43926)) := by
  decide +kernel

/-! ### The summary functions (L1-2, L1-3, L1-4, L2-6) -/

theorem test_crc32_bitSerial : crcBitSerial crc32 check9 = 0xCBF43926 := by decide +kernel
theorem test_crc32_reflected : crcReflected crc32 check9 = 0xCBF43926 := by decide +kernel
theorem test_crc32_reference : crcRef crc32 check9 = 0xCBF43926 := by decide +kernel
theorem test_ccitt_optimized : crcOptimized ccittCfg check9 = 0x29B1 := by decide +kernel
theorem test_arc_table : crcTable arc [0x31] = 0xD4C1 := by decide +kernel
theorem test_short_message :
    crcBitSerial { w := 32, p := 0x04C11DB7, i := 0x12345678, x := 0, refin := false, refout := false } [0x9A] =
      0x7B527556 := by
  decide +kernel
theorem test_width_72 :
    crcReflected { w := 72, p := 1, i := 0, x := 0, refin := false, refout := false } [0x80] = 0x80 := by
  decide +kernel

/-! ### Codes (R22, R35) -/

theorem test_codes : (Status.error .invalidTableRequest).code = 3 ∧ Phase.done.code = 4 ∧
    Reg.rspValue.number = 0xF ∧ algoCode .reflectedTable = 3 := by decide

/-! ### Witnesses: for every obligation with hypotheses, states and operands that meet them together

A statement with several clauses has a witness for each, at the edges of its ranges. -/

/-- A request that carries a value on every port, the ignored ones too. -/
def crowded (cmd : CmdWord) : Request :=
  { cmd := cmd
    ports := { b := 0x31, x := 6, n := 3, seq := [.int 1], poly := 7, width := some 8, init := 0, refin := false,
               refout := false, xorout := 0, msg := [.int 0x31] } }

/-- S8 on the byte 0x31, in each algorithm. -/
def short (algo : Algo) : Latched := { cfg := s8, algo := algo, msg := [0x31] }

/-- The reset state with reset asserted at its next step. -/
def resetting (s : State) : State := { s with resetPin := [true, false] }

/-- A realisation bounded at 32 bits whose cache holds the finished table of (0x07, 8, direct). -/
def cachedState : State :=
  { realisation (some 32) .keyed .chainClosure with
    cache := [({ p := 0x07, w := 8, reflected := false }, directTable 8 0x07)] }

theorem cacheOk_of_empty {s : State} (h : s.cache = []) : CacheOk s := by
  unfold CacheOk; rw [h]; exact ⟨by simp, by simp, fun _ => rfl⟩

theorem witness_cache : CacheOk cachedState := by
  refine ⟨fun e he => ?_, by simp [cachedState], fun h => by cases h⟩
  rw [List.mem_singleton.mp he]
  exact ⟨rfl, by decide, by decide, by decide⟩

theorem witness_holds (phase : Phase) (l : Latched) : Holds (holding phase l) l :=
  ⟨rfl, rfl, rfl, rfl, rfl, rfl, rfl, rfl, rfl⟩

theorem witness_legal_config : LegalCfg Config.default s8 := ⟨by decide, by decide, by decide, by decide⟩

/-! #### Encoding -/

theorem witness_decodeAndEncodeAgree_decode : decode (crowded 0x20) = .ok (.rfw 6 3) := by decide
theorem witness_decodeAndEncodeAgree_ports :
    SameReadPorts (.rfw 6 3) (crowded 0x20).ports (encodePorts (.rfw 6 3)) := ⟨rfl, rfl⟩

theorem witness_reservedWordsAreRefused :
    Issues (issuing [bare 0x84]) (bare 0x84) [] ∧ ResetClear (issuing [bare 0x84]) ∧ (bare 0x84).wf = false :=
  ⟨⟨rfl, rfl⟩, nofun, by decide⟩

theorem witness_stepRunsTheDecodedInstruction :
    Issues (issuing [crowded 0x83]) (crowded 0x83) [] ∧ ResetClear (issuing [crowded 0x83]) ∧
      decode (crowded 0x83) = .ok (.crcRT (s8Operands (some 8) [.int 0x31])) :=
  ⟨⟨rfl, rfl⟩, nofun, by decide⟩

theorem witness_ignoredPortsChangeNothing :
    Issues (issuing [crowded 0x10]) (crowded 0x10) [] ∧ ResetClear (issuing [crowded 0x10]) ∧
      decode (crowded 0x10) = .ok (.rfb 0x31) ∧
      SameReadPorts (.rfb 0x31) (crowded 0x10).ports { Ports.zero with b := 0x31 } ∧
      (crowded 0x10).ports ≠ { Ports.zero with b := 0x31 } :=
  ⟨⟨rfl, rfl⟩, nofun, by decide, rfl, by decide⟩

theorem witness_presentedTableWordRunsNext : decodeTableWord 8 0x10 = some (.rfb 0) := by decide

/-! #### Reset, idling and delivery -/

theorem witness_resetLeavesNoValue : (resetting (holding .consume (short .table))).resetPin.head? = some true := rfl
theorem witness_resetAbandonsTheRequest :
    (resetting (holding .done (short .table))).resetPin.head? = some true := rfl

theorem witness_idleInstanceDoesNothing :
    State.reset.phase = .idle ∧ State.reset.script = [] ∧ ResetClear State.reset := ⟨rfl, rfl, nofun⟩

/-- DONE with a value. -/
def doneOk : State :=
  { holding .done (short .bitSerial) with rspStatus := some .ok, rspValue := some (.nat 0x97) }

/-- DONE with an error. -/
def doneError : State :=
  { State.reset with phase := .done, cmd := some 0x82, rspStatus := some (.error .invalidWidth) }

theorem witness_deliveryReturnsToIdle_ok :
    doneOk.phase = .done ∧ ResetClear doneOk ∧ doneOk.rspStatus = some .ok ∧ doneOk.rspValue = some (.nat 0x97) :=
  ⟨rfl, nofun, rfl, rfl⟩
theorem witness_deliveryReturnsToIdle_error :
    doneError.phase = .done ∧ ResetClear doneError ∧ doneError.rspStatus = some (.error .invalidWidth) ∧
      Status.error .invalidWidth ≠ .ok := ⟨rfl, nofun, rfl, by decide⟩

/-! #### The invariant, in every phase -/

theorem witness_inv_idle (script : List Request) : EngineInv (issuing script) :=
  ⟨rfl, cacheOk_of_empty rfl, by simp [PhaseOk, Dead, issuing, State.reset]⟩

theorem witness_inv_init : EngineInv (holding .init (short .reflectedTable)) :=
  ⟨rfl, cacheOk_of_empty rfl, short .reflectedTable, witness_holds _ _, witness_legal_config, rfl, rfl, rfl, rfl,
    rfl, rfl⟩

/-- CONSUME of BitSerial before its last bit. -/
def consuming : State :=
  { holding .consume (short .bitSerial) with reg := some 0xC8, idx := some 1, bitpos := some 0 }

theorem witness_inv_consume : EngineInv consuming :=
  ⟨rfl, cacheOk_of_empty rfl, short .bitSerial, ⟨rfl, rfl, rfl, rfl, rfl, rfl, rfl, rfl, rfl⟩,
    witness_legal_config, rfl,
    ⟨0xC8, rfl, by decide⟩, ⟨1, rfl, by decide, by decide⟩, fun _ => ⟨0, rfl⟩, rfl, rfl⟩

/-- FINAL of OptimizedTable. -/
def finishing : State :=
  { holding .final (short .optimizedTable) with
    reg := some 0x97, idx := some 1, tbl := some (directTable 8 0x07) }

theorem witness_inv_final : EngineInv finishing :=
  ⟨rfl, cacheOk_of_empty rfl, short .optimizedTable, ⟨rfl, rfl, rfl, rfl, rfl, rfl, rfl, rfl, rfl⟩,
    witness_legal_config, rfl,
    ⟨0x97, rfl, by decide⟩, rfl, rfl, rfl⟩

theorem witness_inv_done : EngineInv doneOk :=
  ⟨rfl, cacheOk_of_empty rfl, 0x80, .crc .bitSerial, rfl, rfl,
    .inl ⟨_, rfl, rfl, 0x97, 8, rfl, rfl, by decide⟩⟩

theorem witness_inv_done_error : EngineInv doneError :=
  ⟨rfl, cacheOk_of_empty rfl, 0x82, .crc .optimizedTable, rfl, rfl, .inr ⟨.invalidWidth, rfl, rfl, rfl⟩⟩

theorem witness_stepKeepsInvariant : EngineInv consuming ∧ ∃ t, step consuming = .next t :=
  ⟨witness_inv_consume, _, rfl⟩
theorem witness_invariantRulesOutFaults : EngineInv finishing := witness_inv_final
theorem witness_onlyReservedWordsAreRefused :
    EngineInv (issuing [bare 0xFF]) ∧ step (issuing [bare 0xFF]) = .refused (.reservedCommand 0xFF) :=
  ⟨witness_inv_idle _, rfl⟩
theorem witness_wellFormedScriptsNeverStop :
    EngineInv (issuing [crowded 0x80, bare 0x10]) ∧ Script.wf (issuing [crowded 0x80, bare 0x10]).script = true :=
  ⟨witness_inv_idle _, by decide⟩
theorem witness_stepKeepsTheParameters : ∃ t, step (issuing [crowded 0x10]) = .next t := ⟨_, rfl⟩

/-! #### Faults and refusals -/

theorem witness_unwrittenRegistersFault_final :
    (holding .final (short .table)).phase = .final ∧ ResetClear (holding .final (short .table)) ∧
      (holding .final (short .table)).reg = none := ⟨rfl, nofun, rfl⟩
theorem witness_unwrittenRegistersFault_status :
    (holding .done (short .table)).phase = .done ∧ ResetClear (holding .done (short .table)) ∧
      (holding .done (short .table)).rspStatus = none := ⟨rfl, nofun, rfl⟩
theorem witness_unwrittenRegistersFault_value :
    { doneOk with rspValue := none }.phase = .done ∧ ResetClear { doneOk with rspValue := none } ∧
      { doneOk with rspValue := none }.rspStatus = some .ok ∧ { doneOk with rspValue := none }.rspValue = none :=
  ⟨rfl, nofun, rfl, rfl⟩

/-- CONSUME with IDX at the end of the message. -/
def pastTheEnd (algo : Algo) : State :=
  { holding .consume (short algo) with reg := some 0, idx := some 1, tbl := some (directTable 8 0x07) }

theorem witness_msgReadOutsideTheMessageFaults (algo : Algo) :
    (pastTheEnd algo).phase = .consume ∧ ResetClear (pastTheEnd algo) ∧ Holds (pastTheEnd algo) (short algo) ∧
      (pastTheEnd algo).tbl = some (directTable 8 0x07) ∧ (pastTheEnd algo).reg = some 0 ∧
      (pastTheEnd algo).idx = some 1 ∧ (short algo).msg.length ≤ 1 :=
  ⟨rfl, nofun, ⟨rfl, rfl, rfl, rfl, rfl, rfl, rfl, rfl, rfl⟩, rfl, rfl, rfl, Nat.le_refl 1⟩

theorem witness_busyInstanceAcceptsNothing : doneOk.phase ≠ .idle := nofun

/-! #### BitReflector -/

theorem witness_reflectionReversesBits : 7 < 8 ∧ 0 < 1 ∧ 0 ≤ 0 := by decide
theorem witness_reflectionIsAnInvolution : 0 < 2 ^ 0 ∧ 31 < 2 ^ 5 := by decide
theorem witness_reflectedRegisterLaws : 8 ≤ 8 ∧ 8 % 8 = 0 ∧ 255 < 2 ^ 8 := by decide
theorem witness_rfbReflectsItsByte : State.reset.phase = .idle := rfl
theorem witness_rfwReflectsTheLowBits : { doneOk with phase := .idle }.phase = .idle := rfl
theorem witness_rfsReflectsOrRejects :
    State.reset.phase = .idle ∧ HasInvalidElem [.int 0, .int 255, .int 256] ∧ HasInvalidElem [.int (-1)] ∧
      HasInvalidElem [.nonInteger] :=
  ⟨rfl, ⟨.int 256, by decide, .inr ⟨256, rfl, by decide⟩⟩, ⟨.int (-1), by decide, .inr ⟨-1, rfl, by decide⟩⟩,
    ⟨.nonInteger, by decide, .inl rfl⟩⟩

/-! #### TableBuilder -/

theorem witness_directTableLaws : 8 ≤ 8 ∧ 8 % 8 = 0 ∧ 255 < 2 ^ 8 := by decide
theorem witness_tableEntriesAreRemainders : 8 ≤ 16 ∧ 16 % 8 = 0 ∧ 0x1021 < 2 ^ 16 ∧ 0xFFFF < 2 ^ 16 := by decide
theorem witness_reflectedTableEntries : 8 ≤ 32 ∧ 32 % 8 = 0 ∧ 0x04C11DB7 < 2 ^ 32 := by decide
theorem witness_chainClosureStepBound : 8 ≤ 8 ∧ 8 % 8 = 0 ∧ 0 < 2 ^ 8 := by decide

theorem witness_legal_width_least : LegalWidth Config.default 8 := ⟨by decide, by decide, nofun⟩
theorem witness_legal_width_greatest : LegalWidth cachedState.config 32 :=
  ⟨by decide, by decide, fun m hm => by cases hm; decide⟩

theorem witness_bldDBuildsTheDirectTable :
    cachedState.phase = .idle ∧ CacheOk cachedState ∧ LegalWidth cachedState.config 32 :=
  ⟨rfl, witness_cache, witness_legal_width_greatest⟩
theorem witness_bldRBuildsTheReflectedTable :
    State.reset.phase = .idle ∧ CacheOk State.reset ∧ LegalWidth State.reset.config 8 :=
  ⟨rfl, cacheOk_of_empty rfl, witness_legal_width_least⟩

theorem witness_illegal_widths :
    IllegalWidth Config.default none ∧ IllegalWidth Config.default (some 0) ∧ IllegalWidth Config.default (some (-8)) ∧
      IllegalWidth Config.default (some 7) ∧ IllegalWidth Config.default (some 12) ∧
      IllegalWidth cachedState.config (some 40) :=
  ⟨.inl rfl, .inr ⟨0, rfl, .inl (by decide)⟩, .inr ⟨-8, rfl, .inl (by decide)⟩, .inr ⟨7, rfl, .inl (by decide)⟩,
    .inr ⟨12, rfl, .inr (.inl (by decide))⟩, .inr ⟨40, rfl, .inr (.inr ⟨32, rfl, by decide⟩)⟩⟩
theorem witness_buildWithIllegalWidthIsRejected :
    cachedState.phase = .idle ∧ IllegalWidth cachedState.config (some 40) :=
  ⟨rfl, witness_illegal_widths.2.2.2.2.2⟩

theorem witness_buildFrame : ∃ t, exec (.bldD 0x07 (some 8)) State.reset = .next t := ⟨_, rfl⟩
theorem witness_cacheEntriesAreNeverChanged :
    (∃ t, step (issuing [crowded 0x40]) = .next t) ∧ ResetClear (issuing [crowded 0x40]) ∧
      (issuing [crowded 0x40]).config.tableCache = .uncached ∧
      (∃ t, step (resetting cachedState) = .next t) ∧ (resetting cachedState).resetPin.head? = some true :=
  ⟨⟨_, rfl⟩, nofun, rfl, ⟨_, rfl⟩, rfl⟩

/-! #### CrcEngine -/

theorem witness_crcRequestsAreLatched :
    State.reset.phase = .idle ∧ LegalWidth State.reset.config 8 ∧
      (s8Operands (some 8) [.int 0x00, .int 0xFF]).width = some ((8 : Nat) : Int) ∧
      (s8Operands (some 8) [.int 0x00, .int 0xFF]).msg = byteElems [0x00, 0xFF] :=
  ⟨rfl, witness_legal_width_least, rfl, rfl⟩

theorem witness_crcIllegalWidthIsRejectedFirst :
    State.reset.phase = .idle ∧ IllegalWidth State.reset.config (s8Operands (some 7) [.int 256]).width :=
  ⟨rfl, witness_illegal_widths.2.2.2.1⟩

theorem witness_crcInvalidElementIsRejected :
    State.reset.phase = .idle ∧ LegalWidth State.reset.config 8 ∧
      (s8Operands (some 8) [.int 0x31, .int 256]).width = some ((8 : Nat) : Int) ∧
      HasInvalidElem (s8Operands (some 8) [.int 0x31, .int 256]).msg :=
  ⟨rfl, witness_legal_width_least, rfl, .int 256, by decide, .inr ⟨256, rfl, by decide⟩⟩

theorem witness_initBitSerialPreloads (m : List Byte) :
    (holding .init { short .bitSerial with msg := m }).phase = .init ∧
      ResetClear (holding .init { short .bitSerial with msg := m }) ∧
      Holds (holding .init { short .bitSerial with msg := m }) { short .bitSerial with msg := m } :=
  ⟨rfl, nofun, witness_holds _ _⟩

theorem witness_initTableVariantsBuildAndLoad (algo : Algo) (h : algo ≠ .bitSerial) :
    (holding .init (short algo)).phase = .init ∧ ResetClear (holding .init (short algo)) ∧
      Holds (holding .init (short algo)) (short algo) ∧
      LegalCfg (holding .init (short algo)).config (short algo).cfg ∧ CacheOk (holding .init (short algo)) ∧
      (short algo).algo ≠ .bitSerial :=
  ⟨rfl, nofun, witness_holds _ _, witness_legal_config, cacheOk_of_empty rfl, h⟩

theorem witness_consumeBitSerialTakesOneBit :
    consuming.phase = .consume ∧ ResetClear consuming ∧ Holds consuming (short .bitSerial) ∧
      consuming.idx = some 1 ∧ (augmented false 8 [0x31])[1]? = some 0x00 ∧ consuming.bitpos = some 0 ∧
      consuming.reg = some 0xC8 :=
  ⟨rfl, nofun, ⟨rfl, rfl, rfl, rfl, rfl, rfl, rfl, rfl, rfl⟩, rfl, rfl, rfl, rfl⟩

/-- CONSUME of a table variant with its table, on its first unit. -/
def consumingByte (algo : Algo) (k : Nat) (t : Table) : State :=
  { holding .consume (short algo) with reg := some 0x31, idx := some k, tbl := some t }

theorem witness_consumeTableTakesOneByte :
    (consumingByte .table 1 (directTable 8 7)).phase = .consume ∧
      ResetClear (consumingByte .table 1 (directTable 8 7)) ∧
      Holds (consumingByte .table 1 (directTable 8 7)) (short .table) ∧
      (consumingByte .table 1 (directTable 8 7)).idx = some 1 ∧ (augmented false 8 [0x31])[1]? = some 0x00 ∧
      (consumingByte .table 1 (directTable 8 7)).reg = some 0x31 ∧
      (consumingByte .table 1 (directTable 8 7)).tbl = some (directTable 8 7) :=
  ⟨rfl, nofun, ⟨rfl, rfl, rfl, rfl, rfl, rfl, rfl, rfl, rfl⟩, rfl, rfl, rfl, rfl⟩

theorem witness_consumeOptimizedTakesOneByte :
    (consumingByte .optimizedTable 0 (directTable 8 7)).phase = .consume ∧
      ResetClear (consumingByte .optimizedTable 0 (directTable 8 7)) ∧
      Holds (consumingByte .optimizedTable 0 (directTable 8 7)) (short .optimizedTable) ∧
      (consumingByte .optimizedTable 0 (directTable 8 7)).idx = some 0 ∧
      (short .optimizedTable).msg[0]? = some 0x31 ∧
      (consumingByte .optimizedTable 0 (directTable 8 7)).reg = some 0x31 ∧
      (consumingByte .optimizedTable 0 (directTable 8 7)).tbl = some (directTable 8 7) :=
  ⟨rfl, nofun, ⟨rfl, rfl, rfl, rfl, rfl, rfl, rfl, rfl, rfl⟩, rfl, rfl, rfl, rfl⟩

theorem witness_consumeReflectedTakesOneByte :
    (consumingByte .reflectedTable 0 (reflectedTable 8 7)).phase = .consume ∧
      ResetClear (consumingByte .reflectedTable 0 (reflectedTable 8 7)) ∧
      Holds (consumingByte .reflectedTable 0 (reflectedTable 8 7)) (short .reflectedTable) ∧
      (consumingByte .reflectedTable 0 (reflectedTable 8 7)).idx = some 0 ∧
      (short .reflectedTable).msg[0]? = some 0x31 ∧
      (consumingByte .reflectedTable 0 (reflectedTable 8 7)).reg = some 0x31 ∧
      (consumingByte .reflectedTable 0 (reflectedTable 8 7)).tbl = some (reflectedTable 8 7) :=
  ⟨rfl, nofun, ⟨rfl, rfl, rfl, rfl, rfl, rfl, rfl, rfl, rfl⟩, rfl, rfl, rfl, rfl⟩

theorem witness_finalFormsTheResponse :
    finishing.phase = .final ∧ ResetClear finishing ∧ Holds finishing (short .optimizedTable) ∧
      finishing.reg = some 0x97 := ⟨rfl, nofun, ⟨rfl, rfl, rfl, rfl, rfl, rfl, rfl, rfl, rfl⟩, rfl⟩

theorem witness_latchedRequestIsImmutable :
    (ResetClear consuming ∧ consuming.phase = .consume ∧ ∃ t, step consuming = .next t) ∧
      (ResetClear finishing ∧ finishing.phase = .final ∧ ∃ t, step finishing = .next t) ∧
      (ResetClear (holding .init (short .bitSerial)) ∧ (holding .init (short .bitSerial)).phase = .init ∧
        ∃ t, step (holding .init (short .bitSerial)) = .next t) :=
  ⟨⟨nofun, rfl, _, rfl⟩, ⟨nofun, rfl, _, rfl⟩, nofun, rfl, _, rfl⟩

/-- The hypotheses of the four whole-request statements, for one CRC command word. -/
theorem witness_crc_runs (cmd : CmdWord) :
    Issues (issuing [crowded cmd]) (crowded cmd) [] ∧ CacheOk (issuing [crowded cmd]) ∧
      LegalWidth (issuing [crowded cmd]).config 8 ∧
      (s8Operands (some 8) [.int 0x31]).width = some ((8 : Nat) : Int) ∧
      (s8Operands (some 8) [.int 0x31]).msg = byteElems [0x31] ∧
      (∀ n, Quiet n (issuing [crowded cmd])) :=
  ⟨⟨rfl, rfl⟩, cacheOk_of_empty rfl, witness_legal_width_least, rfl, rfl,
    fun n => by simp [Quiet, issuing, State.reset]⟩

theorem witness_crcBitSerialRunsToItsValue :
    decode (crowded 0x80) = .ok (.crcBS (s8Operands (some 8) [.int 0x31])) := by decide
theorem witness_crcTableRunsToItsValue :
    decode (crowded 0x81) = .ok (.crcTB (s8Operands (some 8) [.int 0x31])) := by decide
theorem witness_crcOptimizedRunsToItsValue :
    decode (crowded 0x82) = .ok (.crcOT (s8Operands (some 8) [.int 0x31])) := by decide
theorem witness_crcReflectedRunsToItsValue :
    decode (crowded 0x83) = .ok (.crcRT (s8Operands (some 8) [.int 0x31])) := by decide

theorem witness_fourVariantsAgree (algo : Algo) :
    decode (crowded (crcWord algo)) = .ok (crcInstr algo (s8Operands (some 8) [.int 0x31])) := by
  cases algo <;> decide

/-- The request for CRC-32 of the empty message. -/
def emptyMessage (algo : Algo) : Request :=
  { cmd := crcWord algo
    ports := { Ports.zero with
      poly := 0x04C11DB7, width := some 32, init := 0xFFFFFFFF, refin := true, refout := true
      xorout := 0xFFFFFFFF } }

theorem witness_emptyMessageValueAndBound (algo : Algo) :
    Issues (issuing [emptyMessage algo]) (emptyMessage algo) [] ∧
      decode (emptyMessage algo) = .ok (crcInstr algo (emptyMessage algo).ports.crcOperands) ∧
      CacheOk (issuing [emptyMessage algo]) ∧ LegalWidth (issuing [emptyMessage algo]).config 32 ∧
      (emptyMessage algo).ports.crcOperands.width = some ((32 : Nat) : Int) ∧
      (emptyMessage algo).ports.crcOperands.msg = [] ∧ Quiet 3 (issuing [emptyMessage algo]) :=
  ⟨⟨rfl, rfl⟩, by cases algo <;> decide, cacheOk_of_empty rfl, ⟨by decide, by decide, nofun⟩, rfl, rfl,
    by simp [Quiet, issuing, State.reset]⟩

theorem witness_byteStepsEqualBitSteps : 8 ≤ 8 ∧ 8 % 8 = 0 ∧ 0x07 < 2 ^ 8 ∧ 0xFF < 2 ^ 8 := by decide

/-- The hypotheses on a configuration that R164, R168, R191 and R203 share. -/
theorem witness_legal_crcCfg :
    8 ≤ crc32.w ∧ crc32.w % 8 = 0 ∧ crc32.p < 2 ^ crc32.w ∧ crc32.i < 2 ^ crc32.w ∧ crc32.x < 2 ^ crc32.w := by
  decide

theorem witness_valueIsAffineInTheMessage :
    8 ≤ crc32.w ∧ crc32.w % 8 = 0 ∧ ([0x31, 0x32] : List Byte).length = ([0x00, 0xFF] : List Byte).length := by
  decide

theorem witness_responseDependsOnTheRequestAlone :
    (crowded 0x82).wf = true ∧ (issuing [crowded 0x82]).config.wMax = none ∧ CacheOk (issuing [crowded 0x82]) ∧
      Issues (issuing [crowded 0x82]) (crowded 0x82) [] ∧
      Quiet (8 * (crowded 0x82).ports.msg.length + 4) (issuing [crowded 0x82]) :=
  ⟨by decide, rfl, cacheOk_of_empty rfl, ⟨rfl, rfl⟩, by simp [Quiet, issuing, State.reset]⟩

end Sys2Proof.Machine.Tests
end

/-! ## The parameters and the reset samples along a step and a run -/

namespace Sys2Proof.Machine

/-- No phase's step writes the parameters or the samples of the reset input still to come. -/
theorem advance_keeps_config_resetPin {s t : State} (h : advance s = .next t) :
    t.config = s.config ∧ t.resetPin = s.resetPin := by
  cases hp : s.phase with
  | idle =>
    rw [advance_idle hp] at h
    rcases acceptNext_next h with ⟨-, rfl⟩ | ⟨_, _, _, -, -, he⟩
    · exact ⟨rfl, rfl⟩
    · obtain ⟨-, hcfg, -, -, hpin, -⟩ := exec_next he
      exact ⟨hcfg, hpin⟩
  | init =>
    rw [advance_init hp] at h
    obtain ⟨_, _, _, _, _, _, _, -, rfl⟩ := stepInit_next h
    exact ⟨rfl, rfl⟩
  | consume =>
    rw [advance_consume hp] at h
    obtain ⟨_, _, _, _, rfl⟩ := stepConsume_next h
    exact ⟨rfl, rfl⟩
  | final =>
    rw [advance_final hp] at h
    obtain ⟨_, rfl⟩ := stepFinal_next h
    exact ⟨rfl, rfl⟩
  | done =>
    rw [advance_done hp] at h
    obtain ⟨_, -, rfl⟩ := deliver_next h
    exact ⟨rfl, rfl⟩

/-- A step keeps the parameters and takes one sample of the reset input (log entries 5 and 8). -/
theorem step_keeps_config_takes_sample {s t : State} (h : step s = .next t) :
    t.config = s.config ∧ t.resetPin = s.resetPin.tail := by
  rcases clear_or_reset s with hc | hr
  · rw [step_of_clear hc] at h
    exact advance_keeps_config_resetPin h
  · rw [step_of_reset hr] at h
    cases h
    exact ⟨rfl, rfl⟩

/-- Settles O16: no phase's step writes the parameters, and reset leaves them. -/
theorem stepKeepsTheParameters : Obligations.StepKeepsTheParameters := by
  unfold Obligations.StepKeepsTheParameters
  exact fun _ _ h => (step_keeps_config_takes_sample h).1

/-- A run of `n` steps takes `n` samples of the reset input. -/
theorem run_resetPin {n : Nat} {s t : State} (h : Host.Core.run Sys2Proof.core n s = .next t) :
    t.resetPin = s.resetPin.drop n := by
  induction n generalizing s with
  | zero => cases h; rfl
  | succ n ih =>
    obtain ⟨u, hs, hr⟩ := run_succ_next h
    rw [ih hr, (step_keeps_config_takes_sample hs).2, List.drop_tail]

/-! ### Quiet steps -/

theorem Quiet.mono {m n : Nat} {s : State} (h : Quiet n s) (hmn : m ≤ n) : Quiet m s :=
  fun b hb => h b (List.take_subset_take_left _ hmn hb)

/-- After `m` of the quiet steps to come, the others are still to come. -/
theorem Quiet.of_drop {m n : Nat} {s t : State} (h : Quiet (m + n) s) (ht : t.resetPin = s.resetPin.drop m) :
    Quiet n t := by
  intro b hb
  rw [ht, List.take_drop] at hb
  exact h b (List.drop_subset m _ hb)

/-- The state whose next `n` samples of the reset input are taken. -/
def dropPins (n : Nat) (s : State) : State := { s with resetPin := s.resetPin.drop n }

theorem dropPins_succ (n : Nat) (s : State) : dropPins (n + 1) s = dropPins n (dropPin s) := by
  simp [dropPins, dropPin]

theorem dropPins_dropPins (m n : Nat) (s : State) : dropPins n (dropPins m s) = dropPins (m + n) s := by
  simp [dropPins]

theorem Quiet.dropPins {m n : Nat} {s : State} (h : Quiet (m + n) s) : Quiet n (dropPins m s) :=
  h.of_drop rfl

end Sys2Proof.Machine

/-! ## The CRC sequencer, one unit of the stream at a time -/

namespace Sys2Proof.Machine

/-- The stream CONSUME indexes: the augmented stream for BitSerial and Table, the message for the others (R31). -/
def stream (l : Latched) : List Byte :=
  match l.algo with
  | .bitSerial => augmented l.cfg.refin l.cfg.w l.msg
  | .table => augmented l.cfg.refin l.cfg.w l.msg
  | .optimizedTable => l.msg
  | .reflectedTable => l.msg

/-- REG as INIT leaves it (R170, R180, R185, R190). -/
def startReg (l : Latched) : Nat :=
  match l.algo with
  | .bitSerial => l.cfg.i ^^^ preload l.cfg.refin l.cfg.w l.msg
  | .table => l.cfg.i ^^^ preload l.cfg.refin l.cfg.w l.msg
  | .optimizedTable => l.cfg.i
  | .reflectedTable => reflectW l.cfg.i l.cfg.w

/-- REG after one byte of the stream: eight bit steps for BitSerial (R172), one byte step for the others (R181,
R186, R192). -/
def byteStep (l : Latched) : Nat → Byte → Nat :=
  match l.algo with
  | .bitSerial => fun r a => (bitsDown a).foldl (bitstep l.cfg.w l.cfg.p) r
  | .table => tableStep l.cfg.w (directTable l.cfg.w l.cfg.p)
  | .optimizedTable => fun r a =>
    optimizedStep l.cfg.w (directTable l.cfg.w l.cfg.p) r (effectiveByte l.cfg.refin a)
  | .reflectedTable => fun r a =>
    reflectedStep (reflectedTable l.cfg.w l.cfg.p) r (if l.cfg.refin then a else reflect8 a)

/-- The steps CONSUME takes for one byte of the stream (R249). -/
def stepsPerByte (algo : Algo) : Nat :=
  match algo with
  | .bitSerial => 8
  | .table => 1
  | .optimizedTable => 1
  | .reflectedTable => 1

theorem stepsPerByte_of_ne {algo : Algo} (h : algo ≠ .bitSerial) : stepsPerByte algo = 1 := by
  cases algo with
  | bitSerial => exact absurd rfl h
  | _ => rfl

theorem stepsPerByte_le (algo : Algo) : stepsPerByte algo ≤ 8 := by cases algo <;> decide

/-- The stream has a unit for each message byte past the first unit CONSUME takes (R31, R166). -/
theorem length_stream (l : Latched) : (stream l).length = firstIdx l + l.msg.length := by
  obtain ⟨cfg, algo, m⟩ := l
  cases algo <;> simp [stream, firstIdx, augmented_length, Nat.add_comm]

theorem testBit_reflect8 (b : Byte) (i : Nat) :
    (reflect8 b).toNat.testBit i = (decide (i < 8) && b.toNat.testBit (7 - i)) := by
  rw [reflect8, BitVec.toNat_ofNat, Nat.testBit_mod_two_pow, testBit_reverseBits]
  simp

theorem reflect8_reflect8 (b : Byte) : reflect8 (reflect8 b) = b := by
  refine BitVec.eq_of_toNat_eq (Nat.eq_of_testBit_eq fun i => ?_)
  rw [testBit_reflect8, testBit_reflect8]
  by_cases hi : i < 8
  · have h7 : 7 - i < 8 := by omega
    have hback : 7 - (7 - i) = i := by omega
    simp [hi, h7, hback]
  · have h0 : b.toNat.testBit i = false := b.getLsbD_of_ge i (Nat.not_lt.mp hi)
    simp [hi, h0]

theorem reflected_byte (refin : Bool) (b : Byte) :
    (if refin then b else reflect8 b) = reflect8 (effectiveByte refin b) := by
  cases refin <;> simp [effectiveByte, reflect8_reflect8]

/-- The sequencer's registers and the one-function summaries give one value (R173, R182, R187, R193). -/
theorem finish_stream_eq_crcValue (l : Latched) :
    finish (finalFlip l.algo l.cfg.refout) l.cfg.w l.cfg.x
      (((stream l).drop (firstIdx l)).foldl (byteStep l) (startReg l)) = crcValue l.algo l.cfg l.msg := by
  obtain ⟨cfg, algo, m⟩ := l
  cases algo with
  | bitSerial => simp [finalFlip, stream, firstIdx, startReg, byteStep, crcValue, crcBitSerial, List.foldl_flatMap]
  | table => rfl
  | optimizedTable =>
    simp [finalFlip, stream, firstIdx, startReg, byteStep, crcValue, crcOptimized, optimizedRegister, effective,
      List.foldl_map]
  | reflectedTable =>
    simp [finalFlip, stream, firstIdx, startReg, byteStep, crcValue, crcReflected, reflectedRegister, effective,
      List.foldl_map, reflected_byte]

/-! ### CONSUME -/

/-- What INIT has made ready for CONSUME, and no later step writes: the latched request, its table, and for
BitSerial a whole byte to take. -/
structure Ready (s : State) (l : Latched) : Prop where
  holds : Holds s l
  bitpos : l.algo = .bitSerial → s.bitpos = some 7
  tbl : l.algo ≠ .bitSerial → TblOk s l

/-- `s` with the unit `k` of the stream the next to take and `r` in REG; FINAL when no unit is left. -/
def atByte (l : Latched) (k r : Nat) (s : State) : State :=
  { s with reg := some r, idx := some k, phase := nextPhase (k != (stream l).length) }

theorem Ready.dropPin {s : State} {l : Latched} (h : Ready s l) : Ready (dropPin s) l :=
  ⟨h.holds, h.bitpos, h.tbl⟩

theorem Ready.dropPins {s : State} {l : Latched} (h : Ready s l) (n : Nat) : Ready (dropPins n s) l :=
  ⟨h.holds, h.bitpos, h.tbl⟩

theorem step_atByte {l : Latched} {k r : Nat} {s : State} (hc : ResetClear s) (hk : k < (stream l).length) :
    step (atByte l k r s) = stepConsume (atByte l k r (dropPin s)) := by
  have hp : (atByte l k r (dropPin s)).phase = .consume := by
    simp [atByte, nextPhase, hk.ne]
  rw [← advance_consume hp]
  exact step_of_clear hc

/-- CONSUME of a table variant takes one byte of its stream (R181, R186, R192). -/
theorem stepConsume_atByte {l : Latched} {k r : Nat} {s : State} (ha : l.algo ≠ .bitSerial) (h : Ready s l)
    (hk : k < (stream l).length) :
    stepConsume (atByte l k r s) = .next (atByte l (k + 1) (byteStep l r (stream l)[k]) s) := by
  obtain ⟨⟨-, hw, -, -, -, hrefin, -, halgo, hmsg⟩, -, htbl⟩ := h
  obtain ⟨cfg, algo, m⟩ := l
  cases algo with
  | bitSerial => exact absurd rfl ha
  | table =>
    have ht : s.tbl = some (directTable cfg.w cfg.p) := htbl ha
    simp only [stepConsume, consumeTable, atByte, hw, hrefin, halgo, hmsg, ht, readReg_some]
    exact readStream_eq hk _
  | optimizedTable =>
    have ht : s.tbl = some (directTable cfg.w cfg.p) := htbl ha
    simp only [stepConsume, consumeOptimized, atByte, hw, hrefin, halgo, hmsg, ht, readReg_some]
    exact readStream_eq hk _
  | reflectedTable =>
    have ht : s.tbl = some (reflectedTable cfg.w cfg.p) := htbl ha
    simp only [stepConsume, consumeReflected, atByte, hw, hrefin, halgo, hmsg, ht, readReg_some]
    exact readStream_eq hk _

/-- Bits `n` to 0 of a byte, in the order CONSUME takes them (R54, R172). -/
def bitsFrom (a : Byte) (n : Nat) : List Nat := (List.range (n + 1)).reverse.map (bitAt a.toNat)

theorem bitsFrom_seven (a : Byte) : bitsFrom a 7 = bitsDown a := rfl

theorem bitsFrom_zero (a : Byte) : bitsFrom a 0 = [bitAt a.toNat 0] := rfl

theorem bitsFrom_succ (a : Byte) (n : Nat) : bitsFrom a (n + 1) = bitAt a.toNat (n + 1) :: bitsFrom a n := by
  simp [bitsFrom, List.range_succ]

/-- `s` in CONSUME of BitSerial, with bit `b` of the unit `k` the next to take. -/
def atBit (l : Latched) (k : Nat) (b : Fin 8) (r : Nat) (s : State) : State :=
  atByte l k r { s with bitpos := some b }

/-- BitSerial takes one bit; the byte is done with bit 0 (R172). -/
theorem step_atBit {l : Latched} {k r : Nat} {b : Fin 8} {s : State} (hc : ResetClear s)
    (ha : l.algo = .bitSerial) (h : Holds s l) (hk : k < (stream l).length) :
    step (atBit l k b r s) =
      .next (atBit l (if b = 0 then k + 1 else k) (if b = 0 then 7 else b - 1)
        (bitstep l.cfg.w l.cfg.p r (bitAt (stream l)[k].toNat b.val)) (dropPin s)) := by
  obtain ⟨-, hw, hp, -, -, hrefin, -, halgo, hmsg⟩ := h
  obtain ⟨cfg, algo, m⟩ := l
  cases ha
  rw [atBit, step_atByte (s := { s with bitpos := some b }) hc hk]
  simp only [stepConsume, consumeBitSerial, atBit, atByte, dropPin, hw, hp, hrefin, halgo, hmsg, readReg_some]
  exact readStream_eq hk _

/-- From bit `n` of a byte, BitSerial takes the rest of the byte in `n + 1` steps. -/
theorem run_atBit {l : Latched} {k n r : Nat} {s : State} (ha : l.algo = .bitSerial) (h : Holds s l)
    (hk : k < (stream l).length) (hn : n < 8) (hq : Quiet (n + 1) s) :
    Host.Core.run Sys2Proof.core (n + 1) (atBit l k ⟨n, hn⟩ r s) =
      .next (atBit l (k + 1) 7 ((bitsFrom (stream l)[k] n).foldl (bitstep l.cfg.w l.cfg.p) r)
        (dropPins (n + 1) s)) := by
  induction n generalizing r s with
  | zero =>
    rw [run_succ (step_atBit (quiet_succ hq).1 ha h hk), dropPins_succ]
    rfl
  | succ n ih =>
    obtain ⟨hc, hq'⟩ := quiet_succ hq
    have hd : Holds (dropPin s) l := h
    have hb : (⟨n + 1, hn⟩ : Fin 8) ≠ 0 := by simp [Fin.ext_iff]
    have hpred : (⟨n + 1, hn⟩ : Fin 8) - 1 = ⟨n, by omega⟩ := by
      ext; simp [Fin.sub_def]; omega
    rw [run_succ (step_atBit hc ha h hk), if_neg hb, if_neg hb, hpred, ih hd _ hq', dropPins_succ (n + 1),
      bitsFrom_succ, List.foldl_cons]

/-- Whatever the algorithm, the steps of one byte fold it into REG. -/
theorem run_byte {l : Latched} {k r : Nat} {s : State} (h : Ready s l) (hk : k < (stream l).length)
    (hq : Quiet (stepsPerByte l.algo) s) :
    Host.Core.run Sys2Proof.core (stepsPerByte l.algo) (atByte l k r s) =
      .next (atByte l (k + 1) (byteStep l r (stream l)[k]) (dropPins (stepsPerByte l.algo) s)) := by
  by_cases ha : l.algo = .bitSerial
  · have hstart : ∀ k r u, u.bitpos = some 7 → atByte l k r u = atBit l k 7 r u := by
      intro k r u hu; rw [atBit, ← hu]
    have hb := h.bitpos ha
    have hsteps : stepsPerByte l.algo = 7 + 1 := by rw [ha]; rfl
    have hfold : ∀ a, byteStep l r a = (bitsDown a).foldl (bitstep l.cfg.w l.cfg.p) r := by
      simp only [byteStep, ha, implies_true]
    rw [hsteps] at hq ⊢
    rw [hstart _ _ _ hb, hstart _ _ _ ((h.dropPins _).bitpos ha), hfold, ← bitsFrom_seven]
    exact run_atBit ha h.holds hk (by decide) hq
  · rw [stepsPerByte_of_ne ha] at hq ⊢
    rw [run_succ (n := 0) ((step_atByte (quiet_succ hq).1 hk).trans (stepConsume_atByte ha h.dropPin hk)),
      dropPins_succ]
    rfl

/-- CONSUME takes the rest of the stream, byte by byte, and ends in FINAL. -/
theorem run_stream {l : Latched} {n k r : Nat} {s : State} (h : Ready s l) (hk : k + n = (stream l).length)
    (hq : Quiet (stepsPerByte l.algo * n) s) :
    Host.Core.run Sys2Proof.core (stepsPerByte l.algo * n) (atByte l k r s) =
      .next (atByte l (stream l).length (((stream l).drop k).foldl (byteStep l) r)
        (dropPins (stepsPerByte l.algo * n) s)) := by
  induction n generalizing k r s with
  | zero =>
    have hnil : (stream l).drop k = [] := List.drop_eq_nil_of_le (by omega)
    rw [hnil, ← hk]
    rfl
  | succ n ih =>
    have hlt : k < (stream l).length := by omega
    rw [Nat.mul_succ, Nat.add_comm] at hq ⊢
    rw [run_add (run_byte h hlt (hq.mono (by omega))), ih (h.dropPins _) (by omega) hq.dropPins, dropPins_dropPins,
      List.drop_eq_getElem_cons hlt, List.foldl_cons]

/-! ### FINAL -/

/-- FINAL responds with the finished register (R200, R201). -/
theorem step_final {l : Latched} {r : Nat} {s : State} (hc : ResetClear s) (h : Holds s l) :
    step (atByte l (stream l).length r s) =
      .next (respond (.nat (finish (finalFlip l.algo l.cfg.refout) l.cfg.w l.cfg.x r))
        (atByte l (stream l).length r (dropPin s))) := by
  obtain ⟨-, hw, -, -, hx, -, hrefout, halgo, -⟩ := h
  have hp : (atByte l (stream l).length r (dropPin s)).phase = .final := by simp [atByte, nextPhase]
  have hstep : step (atByte l (stream l).length r s) = stepFinal (atByte l (stream l).length r (dropPin s)) := by
    rw [← advance_final hp]
    exact step_of_clear hc
  rw [hstep]
  simp [stepFinal, atByte, hw, hx, hrefout, halgo]

/-! ### INIT -/

/-- The key of the table a request uses (R180, R185, R190). -/
def tableKey (l : Latched) : CacheKey :=
  { p := l.cfg.p, w := l.cfg.w, reflected := l.algo == .reflectedTable }

/-- What INIT makes ready: BitSerial's first bit, or the table (R170, R180, R185, R190). -/
def prepared (l : Latched) (s : State) : State :=
  match l.algo with
  | .bitSerial => { s with bitpos := some 7 }
  | .table => constructed (tableKey l) s
  | .optimizedTable => constructed (tableKey l) s
  | .reflectedTable => constructed (tableKey l) s

theorem prepared_host (l : Latched) (s : State) :
    (prepared l s).script = s.script ∧ (prepared l s).responses = s.responses ∧
      (prepared l s).config = s.config ∧ (prepared l s).resetPin = s.resetPin := by
  unfold prepared
  split <;> exact ⟨rfl, rfl, rfl, rfl⟩

theorem ready_prepared {l : Latched} {s : State} (h : Holds s l) : Ready (prepared l s) l := by
  obtain ⟨cfg, algo, m⟩ := l
  cases algo with
  | bitSerial => exact ⟨h, fun _ => rfl, fun ha => absurd rfl ha⟩
  | table => exact ⟨h, nofun, fun _ => rfl⟩
  | optimizedTable => exact ⟨h, nofun, fun _ => rfl⟩
  | reflectedTable => exact ⟨h, nofun, fun _ => rfl⟩

/-- INIT's test for something to consume is CONSUME's test at the first unit. -/
theorem atByte_firstIdx (l : Latched) (r : Nat) (s : State) :
    atByte l (firstIdx l) r s =
      { s with
        reg := some r, idx := some (firstIdx l), phase := nextPhase (firstIdx l < (stream l).length) } := by
  have hle : firstIdx l ≤ (stream l).length := by rw [length_stream]; exact Nat.le_add_right _ _
  have hmore : (firstIdx l != (stream l).length) = decide (firstIdx l < (stream l).length) := by
    rw [Bool.eq_iff_iff, bne_iff_ne, decide_eq_true_iff]
    omega
  rw [atByte, hmore]

/-- INIT prepares the state and loads REG and IDX. BitSerial uses no table, and so no cache. -/
theorem stepInit_eq {l : Latched} {s : State} (h : Holds s l) (hw : 8 ≤ l.cfg.w) (hp : l.cfg.p < 2 ^ l.cfg.w)
    (hcache : l.algo ≠ .bitSerial → CacheOk s) :
    stepInit s = .next (atByte l (firstIdx l) (startReg l) (prepared l s)) := by
  rw [atByte_firstIdx]
  obtain ⟨-, hcw, hcp, hci, -, hrefin, -, halgo, hmsg⟩ := h
  obtain ⟨cfg, algo, m⟩ := l
  cases algo with
  | bitSerial =>
    simp only [stepInit, initBitSerial, prepared, hcw, hci, hrefin, halgo, hmsg, readReg_some]
    rfl
  | table =>
    simp only [stepInit, initTable, hcw, hcp, hci, hrefin, halgo, hmsg, readReg_some]
    exact construct_eq (key := tableKey _) hw hp (hcache nofun) _
  | optimizedTable =>
    simp only [stepInit, initOptimized, hcw, hcp, hci, halgo, hmsg, readReg_some]
    exact construct_eq (key := tableKey _) hw hp (hcache nofun) _
  | reflectedTable =>
    simp only [stepInit, initReflected, hcw, hcp, hci, halgo, hmsg, readReg_some]
    exact construct_eq (key := tableKey _) hw hp (hcache nofun) _

end Sys2Proof.Machine

/-! ## Whole requests -/

namespace Sys2Proof.Machine

/-! ### A CRC request from INIT, and from its accept step -/

/-- From INIT a latched request runs to the value of its one-function summary (R173, R182, R187, R193, R249). -/
theorem runsTo_of_init {l : Latched} {s : State} (hphase : s.phase = .init) (h : Holds s l) (hw : 8 ≤ l.cfg.w)
    (hp : l.cfg.p < 2 ^ l.cfg.w) (hcache : l.algo ≠ .bitSerial → CacheOk s)
    (hq : Quiet (stepsPerByte l.algo * l.msg.length + 2) s) :
    RunsTo (stepsPerByte l.algo * l.msg.length + 2) s s.script (crcValue l.algo l.cfg l.msg) := by
  obtain ⟨hc, hq⟩ := quiet_succ hq
  let u := prepared l (dropPin s)
  obtain ⟨hscript, hresp, hconfig, hpin⟩ := prepared_host l (dropPin s)
  have hu : Ready u l := ready_prepared h
  have hqu : Quiet (stepsPerByte l.algo * l.msg.length + 1) u := by
    rwa [Quiet, hpin]
  have hinit : step s = .next (atByte l (firstIdx l) (startReg l) u) := by
    rw [step_of_clear hc, advance_init (s := dropPin s) hphase]
    exact stepInit_eq h hw hp hcache
  have hconsume := run_stream (r := startReg l) hu (length_stream l).symm (hqu.mono (by omega))
  have hfinal := step_final (r := ((stream l).drop (firstIdx l)).foldl (byteStep l) (startReg l))
    (quiet_succ hqu.dropPins).1 (hu.dropPins (stepsPerByte l.algo * l.msg.length)).holds
  rw [finish_stream_eq_crcValue] at hfinal
  have hrun := (run_succ hinit).trans ((run_add hconsume).trans (run_succ (n := 0) hfinal))
  exact ⟨_, hrun, rfl, rfl, rfl, hscript, hresp, hconfig⟩

/-- `s` at its accept step: the sample of the reset input is taken, and the script has lost its request. -/
def issued (rest : List Request) (s : State) : State := { s with script := rest, resetPin := s.resetPin.tail }

/-- A step in IDLE is the decoded instruction on the state whose script has lost the request (R160). -/
theorem step_of_issues {s : State} {r : Request} {rest : List Request} {i : Instr} (hi : Issues s r rest)
    (hc : ResetClear s) (hd : decode r = .ok i) : step s = exec i (issued rest s) := by
  obtain ⟨hp, hs⟩ := hi
  rw [step_of_clear hc, advance_idle (s := dropPin s) hp, acceptNext, dropPin_script, hs]
  simp only [hd]
  rfl

theorem exec_crcInstr (algo : Algo) (o : CrcOperands) (s : State) :
    exec (crcInstr algo o) s = acceptCrc (crcWord algo) o s := by
  cases algo <;> rfl

/-- A legal width and a valid message are latched (R162). -/
theorem acceptCrc_latches {cmd : CmdWord} {o : CrcOperands} {s : State} {w : Nat} {m : List Byte}
    (hp : s.phase = .idle) (hw : legalWidth s.config o.width = some w) (hm : validBytes o.msg = some m) :
    acceptCrc cmd o s = .next (latchCrc cmd w o m { s with cmd := some cmd }) := by
  rw [acceptCrc, accept_idle hp]
  simp only [hw, hm]

theorem holds_latchCrc (algo : Algo) (w : Nat) (o : CrcOperands) (m : List Byte) (s : State) :
    Holds (latchCrc (crcWord algo) w o m { s with cmd := some (crcWord algo) })
      { cfg := crcCfgOf o w, algo := algo, msg := m } := by
  cases algo <;> exact ⟨rfl, rfl, rfl, rfl, rfl, rfl, rfl, rfl, rfl⟩

/-- A request that its accept step latches runs to the value of its one-function summary, whatever the registers
held before. -/
theorem runsTo_of_latched {algo : Algo} {s : State} {r : Request} {rest : List Request} {o : CrcOperands} {w : Nat}
    {m : List Byte} (hi : Issues s r rest) (hd : decode r = .ok (crcInstr algo o))
    (hcache : algo ≠ .bitSerial → CacheOk s) (hw : legalWidth s.config o.width = some w)
    (hm : validBytes o.msg = some m) (hq : Quiet (stepsPerByte algo * m.length + 3) s) :
    RunsTo (stepsPerByte algo * m.length + 3) s rest (crcValue algo (crcCfgOf o w) m) := by
  obtain ⟨hc, hq⟩ := quiet_succ hq
  have hstep := (step_of_issues hi hc hd).trans (exec_crcInstr algo o _)
  rw [acceptCrc_latches (s := issued rest s) hi.1 hw hm] at hstep
  have h8 : 8 ≤ w := (legal_of_legalWidth hw).2.1
  obtain ⟨t, hrun, hrest⟩ := runsTo_of_init rfl (holds_latchCrc algo w o m (issued rest s)) h8
    (and_mask_lt _ _) hcache hq
  exact ⟨t, (run_succ hstep).trans hrun, hrest⟩

/-! ## One response for a request -/

/-- The response of a request that succeeds with `v` (R86). -/
def okResponse (v : RspValue) : Response := { status := .ok, value := some v }

/-- The response of a request that ends in the error `e` (R86, R216). -/
def errorResponse (e : ErrorKind) : Response := { status := .error e, value := none }

/-- A realisation's parameters with only W_MAX given; no response depends on the others (R58, R140). -/
def boundedBy (wMax : Option Nat) : Config := { Config.default with wMax := wMax }

/-- The response to RFS (R114). -/
def rfsResponse (seq : List Elem) : Response :=
  match validBytes seq with
  | none => errorResponse .invalidMessageElement
  | some m => okResponse (.bytes (m.map reflect8))

/-- The response to BLD.D and BLD.R (R137, R139, R214). -/
def bldResponse (wMax : Option Nat) (reflected : Bool) (poly : Nat) (width : WidthPort) : Response :=
  match legalWidth (boundedBy wMax) width with
  | none => errorResponse .invalidTableRequest
  | some w => okResponse (.table (finishedTable { p := poly &&& mask w, w := w, reflected := reflected }))

/-- The response to the CRC commands (R173, R182, R187, R193, R212, R213, R215). -/
def crcResponse (wMax : Option Nat) (algo : Algo) (o : CrcOperands) : Response :=
  match legalWidth (boundedBy wMax) o.width with
  | none => errorResponse .invalidWidth
  | some w =>
    match validBytes o.msg with
    | none => errorResponse .invalidMessageElement
    | some m => okResponse (.nat (crcValue algo (crcCfgOf o w) m))

/-- The one response to a request with the operation `op` and the ports `p`: no register, cache or building method
enters it (R8). -/
def responseOf (wMax : Option Nat) (op : Opcode) (p : Ports) : Response :=
  match op with
  | .rfb => okResponse (.byte (reflect8 p.b))
  | .rfw => okResponse (.nat (reflectW p.x p.n))
  | .rfs => rfsResponse p.seq
  | .bld reflected => bldResponse wMax reflected p.poly p.width
  | .crc algo => crcResponse wMax algo p.crcOperands

theorem legalWidth_boundedBy (k : Config) (v : WidthPort) :
    legalWidth (boundedBy k.wMax) v = legalWidth k v := rfl

/-- `s` is in DONE with the response `ρ` to deliver. -/
def Answers (s : State) (ρ : Response) : Prop :=
  s.phase = .done ∧
    ((∃ v, ρ = okResponse v ∧ s.rspStatus = some .ok ∧ s.rspValue = some v) ∨
      ∃ e, ρ = errorResponse e ∧ s.rspStatus = some (.error e))

theorem answers_respond (v : RspValue) (s : State) : Answers (respond v s) (okResponse v) :=
  ⟨rfl, .inl ⟨v, rfl, rfl, rfl⟩⟩

theorem answers_raise (e : ErrorKind) (s : State) : Answers (raise e s) (errorResponse e) :=
  ⟨rfl, .inr ⟨e, rfl, rfl⟩⟩

/-- The host takes the response and the engine retires (R161). -/
theorem Answers.deliver_eq {s : State} {ρ : Response} (h : Answers s ρ) :
    deliver s = .next (retire { s with responses := s.responses ++ [ρ] }) := by
  obtain ⟨-, ⟨v, rfl, hstatus, hvalue⟩ | ⟨e, rfl, hstatus⟩⟩ := h
  · exact deliver_ok hstatus hvalue
  · exact deliver_error hstatus

/-- From `s` the request reaches DONE in `n` steps with `ρ` to deliver, and has left the script. -/
def Serves (n : Nat) (s : State) (rest : List Request) (ρ : Response) : Prop :=
  ∃ t, Host.Core.run Sys2Proof.core n s = .next t ∧ Answers t ρ ∧ t.script = rest ∧ t.responses = s.responses

theorem RunsTo.serves {n v : Nat} {s : State} {rest : List Request} (h : RunsTo n s rest v) :
    Serves n s rest (okResponse (.nat v)) := by
  obtain ⟨t, hrun, hphase, hstatus, hvalue, hscript, hresp, -⟩ := h
  exact ⟨t, hrun, ⟨hphase, .inl ⟨_, rfl, hstatus, hvalue⟩⟩, hscript, hresp⟩

/-- A request whose accept step ends in DONE is served in one step. -/
theorem serves_of_exec {s : State} {r : Request} {rest : List Request} {i : Instr} {ρ : Response}
    (hi : Issues s r rest) (hc : ResetClear s) (hd : decode r = .ok i)
    (he : ∃ u, exec i (issued rest s) = .next u ∧ Answers u ρ) : Serves 1 s rest ρ := by
  obtain ⟨u, he, hu⟩ := he
  obtain ⟨-, -, hscript, hresp, -, -⟩ := exec_next he
  exact ⟨u, run_succ ((step_of_issues hi hc hd).trans he), hu, hscript, hresp⟩

theorem exec_rfb_answers {s : State} (hp : s.phase = .idle) (b : Byte) :
    ∃ u, exec (.rfb b) s = .next u ∧ Answers u (okResponse (.byte (reflect8 b))) := by
  rw [exec, execRfb, accept_idle hp]
  exact ⟨_, rfl, answers_respond _ _⟩

theorem exec_rfw_answers {s : State} (hp : s.phase = .idle) (x n : Nat) :
    ∃ u, exec (.rfw x n) s = .next u ∧ Answers u (okResponse (.nat (reflectW x n))) := by
  rw [exec, execRfw, accept_idle hp]
  exact ⟨_, rfl, answers_respond _ _⟩

/-- RFS answers its reflected sequence, or the error of an invalid element (R114). -/
theorem exec_rfs_answers {s : State} (hp : s.phase = .idle) (seq : List Elem) :
    ∃ u, exec (.rfs seq) s = .next u ∧ Answers u (rfsResponse seq) := by
  rw [exec, execRfs, accept_idle hp, rfsResponse]
  cases validBytes seq with
  | none => exact ⟨_, rfl, answers_raise _ _⟩
  | some m => exact ⟨_, rfl, answers_respond _ _⟩

/-- A build answers its table, or the error of an illegal width, whatever the cache and the building method. -/
theorem buildRequest_answers {s : State} (hc : CacheOk s) (reflected : Bool) (poly : Nat) (width : WidthPort) :
    ∃ u, buildRequest reflected poly width s = .next u ∧
      Answers u (bldResponse s.config.wMax reflected poly width) := by
  rw [bldResponse, legalWidth_boundedBy]
  cases hw : legalWidth s.config width with
  | none => exact ⟨_, buildRequest_illegal hw, answers_raise _ _⟩
  | some w => exact ⟨_, buildRequest_legal hc hw, answers_respond _ _⟩

/-- BLD.D and BLD.R answer in their accept step (R137, R139). -/
theorem exec_bld_answers {s : State} (hp : s.phase = .idle) (hc : CacheOk s) (reflected : Bool) (p : Ports) :
    ∃ u, exec ((Opcode.bld reflected).assemble p) s = .next u ∧
      Answers u (bldResponse s.config.wMax reflected p.poly p.width) := by
  have hc' : ∀ cmd, CacheOk { s with cmd := some cmd } := fun _ => hc
  cases reflected with
  | false =>
    obtain ⟨u, hu, ha⟩ := buildRequest_answers (hc' 0x40) false p.poly p.width
    exact ⟨u, (accept_idle hp _).trans hu, ha⟩
  | true =>
    obtain ⟨u, hu, ha⟩ := buildRequest_answers (hc' 0x41) true p.poly p.width
    exact ⟨u, (accept_idle hp _).trans hu, ha⟩

theorem assemble_crc (algo : Algo) (p : Ports) : (Opcode.crc algo).assemble p = crcInstr algo p.crcOperands := by
  cases algo <;> rfl

theorem length_of_validBytes {l : List Elem} {m : List Byte} (h : validBytes l = some m) : m.length = l.length := by
  rw [(validBytes_iff l m).mp h, List.length_map]

/-- A CRC request is served: in one step on an error, and in the steps of its sequencer otherwise (R249). -/
theorem serves_crc {algo : Algo} {s : State} {r : Request} {rest : List Request} {o : CrcOperands}
    (hi : Issues s r rest) (hd : decode r = .ok (crcInstr algo o)) (hcache : CacheOk s)
    (hq : Quiet (8 * o.msg.length + 3) s) :
    ∃ n, n ≤ 8 * o.msg.length + 3 ∧ Serves n s rest (crcResponse s.config.wMax algo o) := by
  have hc : ResetClear s := (quiet_succ hq).1
  have he := exec_crcInstr algo o (issued rest s)
  have hcfg : (issued rest s).config = s.config := rfl
  rw [crcResponse, legalWidth_boundedBy]
  rcases acceptCrc_cases (crcWord algo) o (s := issued rest s) hi.1 with
    ⟨hw, ha⟩ | ⟨w, hw, hm, ha⟩ | ⟨w, m, hw, hm, -⟩ <;> rw [hcfg] at hw <;> simp only [hw]
  · exact ⟨1, by omega, serves_of_exec hi hc hd ⟨_, he.trans ha, answers_raise _ _⟩⟩
  · simp only [hm]
    exact ⟨1, by omega, serves_of_exec hi hc hd ⟨_, he.trans ha, answers_raise _ _⟩⟩
  · have hn : stepsPerByte algo * m.length + 3 ≤ 8 * o.msg.length + 3 := by
      rw [length_of_validBytes hm]
      exact Nat.add_le_add_right (Nat.mul_le_mul_right _ (stepsPerByte_le algo)) 3
    simp only [hm]
    exact ⟨_, hn, (runsTo_of_latched hi hd (fun _ => hcache) hw hm (hq.mono hn)).serves⟩

/-- Every request that decodes is served with the response its operation and ports fix (R8). -/
theorem serves_responseOf {s : State} {r : Request} {rest : List Request} {op : Opcode} (hi : Issues s r rest)
    (hd : decode r = .ok (op.assemble r.ports)) (hcache : CacheOk s) (hq : Quiet (8 * r.ports.msg.length + 3) s) :
    ∃ n, n ≤ 8 * r.ports.msg.length + 3 ∧ Serves n s rest (responseOf s.config.wMax op r.ports) := by
  have hc : ResetClear s := (quiet_succ hq).1
  have hp : (issued rest s).phase = .idle := hi.1
  have hcache' : CacheOk (issued rest s) := hcache
  cases op with
  | rfb => exact ⟨1, by omega, serves_of_exec hi hc hd (exec_rfb_answers hp r.ports.b)⟩
  | rfw => exact ⟨1, by omega, serves_of_exec hi hc hd (exec_rfw_answers hp r.ports.x r.ports.n)⟩
  | rfs => exact ⟨1, by omega, serves_of_exec hi hc hd (exec_rfs_answers hp r.ports.seq)⟩
  | bld reflected => exact ⟨1, by omega, serves_of_exec hi hc hd (exec_bld_answers hp hcache' reflected r.ports)⟩
  | crc algo =>
    rw [assemble_crc] at hd
    exact serves_crc hi hd hcache hq

theorem dead_retire (s : State) : Dead (retire s) :=
  ⟨rfl, rfl, rfl, rfl, rfl, rfl, rfl, rfl, rfl, rfl, rfl, rfl, rfl, rfl, rfl⟩

/-- The host takes the response of a served request in one more step (R161). -/
theorem Serves.taken {n : Nat} {s : State} {rest : List Request} {ρ : Response} (h : Serves n s rest ρ)
    (hq : Quiet (n + 1) s) :
    ∃ t, Host.Core.run Sys2Proof.core (n + 1) s = .next t ∧ t.phase = .idle ∧ Dead t ∧ t.script = rest ∧
      t.responses = s.responses ++ [ρ] := by
  obtain ⟨u, hrun, hu, hscript, hresp⟩ := h
  have hc : ResetClear u := (quiet_succ (hq.of_drop (run_resetPin hrun))).1
  have hu' : Answers (dropPin u) ρ := hu
  have hstep := (step_of_clear hc).trans ((advance_done hu'.1).trans hu'.deliver_eq)
  refine ⟨_, (run_add hrun).trans (run_succ (n := 0) hstep), rfl, dead_retire _, hscript, ?_⟩
  exact congrArg (· ++ [ρ]) hresp

/-- A request that is not reserved decodes to an operation with its ports (R90, R93). -/
theorem decode_of_wf {r : Request} (h : r.wf = true) : ∃ op : Opcode, decode r = .ok (op.assemble r.ports) := by
  have hword : ∃ op, decodeWord r.cmd = .ok op := by
    rcases decodeWord_cases r.cmd with ⟨hwf, -⟩ | ⟨-, hop⟩
    · exact absurd (hwf.symm.trans h) nofun
    · rcases hop with ⟨-, h⟩ | ⟨-, h⟩ | ⟨-, h⟩ | ⟨-, h⟩ | ⟨-, h⟩ | ⟨-, h⟩ | ⟨-, h⟩ | ⟨-, h⟩ | ⟨-, h⟩ <;>
        exact ⟨_, h⟩
  obtain ⟨op, hop⟩ := hword
  exact ⟨op, by simp only [decode, hop]⟩

/-- Settles O58: the response is `responseOf`, which neither the registers nor the cache nor the building method
enter; every operation reaches DONE with it, and one more step delivers it. -/
theorem responseDependsOnTheRequestAlone : Obligations.ResponseDependsOnTheRequestAlone := by
  unfold Obligations.ResponseDependsOnTheRequestAlone
  intro wMax r hwf
  obtain ⟨op, hd⟩ := decode_of_wf hwf
  refine ⟨responseOf wMax op r.ports, fun s rest hmax hcache hi hq => ?_⟩
  subst hmax
  obtain ⟨n, hn, hserves⟩ := serves_responseOf hi hd hcache (hq.mono (by omega))
  obtain ⟨t, ht⟩ := hserves.taken (hq.mono (by omega))
  exact ⟨n + 1, t, by omega, ht⟩

end Sys2Proof.Machine

/-! ## The invariant: from a state that meets it, a step goes on or refuses a reserved word -/

namespace Sys2Proof.Machine

/-! ### What enters IDLE and DONE -/

/-- An engine whose registers are dead meets the invariant, whatever it held before (R41). -/
theorem engineInv_retire {s : State} (hcache : CacheOk s) : EngineInv (retire s) :=
  ⟨rfl, hcache, dead_retire s⟩

theorem engineInv_assertReset (s : State) : EngineInv (assertReset s) :=
  ⟨rfl, ⟨by simp, by simp, fun _ => rfl⟩, dead_retire s⟩

theorem engineInv_respond {s : State} {c : CmdWord} {op : Opcode} {v : RspValue} (hbuilder : s.builder = none)
    (hcache : CacheOk s) (hcmd : s.cmd = some c) (hop : decodeWord c = .ok op) (hv : ValueOk op s v) :
    EngineInv (respond v s) :=
  ⟨hbuilder, hcache, c, op, hcmd, hop, .inl ⟨v, rfl, rfl, hv⟩⟩

theorem engineInv_raise {s : State} {c : CmdWord} {op : Opcode} {e : ErrorKind} (hbuilder : s.builder = none)
    (hcache : CacheOk s) (hcmd : s.cmd = some c) (hop : decodeWord c = .ok op) (he : mayRaise op e = true) :
    EngineInv (raise e s) :=
  ⟨hbuilder, hcache, c, op, hcmd, hop, .inr ⟨e, rfl, rfl, he⟩⟩

/-- In DONE there is a response to deliver (R36, R86). -/
theorem ResponseOk.answers {s : State} (h : ResponseOk s) (hp : s.phase = .done) : ∃ ρ, Answers s ρ := by
  obtain ⟨-, -, -, -, ⟨v, hstatus, hvalue, -⟩ | ⟨e, hstatus, -, -⟩⟩ := h
  · exact ⟨_, hp, .inl ⟨v, rfl, hstatus, hvalue⟩⟩
  · exact ⟨_, hp, .inr ⟨e, rfl, hstatus⟩⟩

/-! ### The accept step -/

/-- The outcome is a next state that meets the invariant. -/
def GoesOn (o : StepOutcome) : Prop := ∃ t, o = .next t ∧ EngineInv t

theorem buildRequest_goesOn {s : State} {c : CmdWord} {reflected : Bool} (poly : Nat) (width : WidthPort)
    (hbuilder : s.builder = none) (hcache : CacheOk s) (hcmd : s.cmd = some c)
    (hop : decodeWord c = .ok (.bld reflected)) : GoesOn (buildRequest reflected poly width s) := by
  cases hw : legalWidth s.config width with
  | none => exact ⟨_, buildRequest_illegal hw, engineInv_raise hbuilder hcache hcmd hop rfl⟩
  | some w =>
    obtain ⟨-, h8, hmod, -⟩ := legal_of_legalWidth hw
    have hp : poly &&& mask w < 2 ^ w := and_mask_lt poly w
    let key : CacheKey := { p := poly &&& mask w, w := w, reflected := reflected }
    let u : State := { s with cfgW := some w, cfgP := some (poly &&& mask w) }
    have hcache' : CacheOk (constructed key u) := constructed_cacheOk h8 hmod hp hcache
    exact ⟨_, buildRequest_legal hcache hw, engineInv_respond rfl hcache' hcmd hop
      ⟨finishedTable key, w, rfl, rfl, finishedTable_lt (key := key) hp⟩⟩

/-- A latched CRC request meets INIT's part of the invariant (R162). -/
theorem engineInv_latchCrc {algo : Algo} {o : CrcOperands} {w : Nat} {m : List Byte} {s : State}
    (hbuilder : s.builder = none) (hcache : CacheOk s) (hdead : Dead s)
    (hw : legalWidth s.config o.width = some w) :
    EngineInv (latchCrc (crcWord algo) w o m { s with cmd := some (crcWord algo) }) := by
  obtain ⟨-, -, -, -, -, -, -, -, -, hidx, hbitpos, hreg, htbl, hstatus, hvalue⟩ := hdead
  have hlegal : LegalCfg s.config (crcCfgOf o w) :=
    ⟨(legalWidth_some hw).2, and_mask_lt _ _, and_mask_lt _ _, and_mask_lt _ _⟩
  exact ⟨hbuilder, hcache, _, holds_latchCrc algo w o m s, hlegal, hidx, hbitpos, hreg, htbl, hstatus, hvalue⟩

theorem acceptCrc_goesOn {s : State} (hp : s.phase = .idle) (hbuilder : s.builder = none) (hcache : CacheOk s)
    (hdead : Dead s) (algo : Algo) (o : CrcOperands) : GoesOn (acceptCrc (crcWord algo) o s) := by
  have hop := decodeWord_crcWord algo
  rcases acceptCrc_cases (crcWord algo) o hp with ⟨-, h⟩ | ⟨_, -, -, h⟩ | ⟨w, m, hw, -, h⟩
  · exact ⟨_, h, engineInv_raise hbuilder hcache rfl hop rfl⟩
  · exact ⟨_, h, engineInv_raise hbuilder hcache rfl hop rfl⟩
  · exact ⟨_, h, engineInv_latchCrc hbuilder hcache hdead hw⟩

/-- In IDLE every instruction is accepted, on every operand (R160). -/
theorem exec_goesOn {s : State} (hp : s.phase = .idle) (hbuilder : s.builder = none) (hcache : CacheOk s)
    (hdead : Dead s) (i : Instr) : GoesOn (exec i s) := by
  cases i with
  | rfb b =>
    rw [exec, execRfb, accept_idle hp]
    exact ⟨_, rfl, engineInv_respond (op := .rfb) hbuilder hcache rfl rfl ⟨_, rfl⟩⟩
  | rfw x n =>
    rw [exec, execRfw, accept_idle hp]
    exact ⟨_, rfl, engineInv_respond (op := .rfw) hbuilder hcache rfl rfl ⟨_, rfl⟩⟩
  | rfs seq =>
    rw [exec, execRfs, accept_idle hp]
    cases validBytes seq with
    | none => exact ⟨_, rfl, engineInv_raise (op := .rfs) hbuilder hcache rfl rfl rfl⟩
    | some m => exact ⟨_, rfl, engineInv_respond (op := .rfs) hbuilder hcache rfl rfl ⟨m, rfl, rfl⟩⟩
  | bldD poly width =>
    rw [exec, execBldD, accept_idle hp]
    exact buildRequest_goesOn poly width hbuilder hcache rfl rfl
  | bldR poly width =>
    rw [exec, execBldR, accept_idle hp]
    exact buildRequest_goesOn poly width hbuilder hcache rfl rfl
  | crcBS o => exact acceptCrc_goesOn hp hbuilder hcache hdead .bitSerial o
  | crcTB o => exact acceptCrc_goesOn hp hbuilder hcache hdead .table o
  | crcOT o => exact acceptCrc_goesOn hp hbuilder hcache hdead .optimizedTable o
  | crcRT o => exact acceptCrc_goesOn hp hbuilder hcache hdead .reflectedTable o

/-! ### INIT, CONSUME and FINAL -/

theorem streamLen_eq (l : Latched) : streamLen l = (stream l).length := by
  obtain ⟨cfg, algo, m⟩ := l
  cases algo <;> rfl

theorem startReg_lt {k : Config} {l : Latched} (h : LegalCfg k l.cfg) : startReg l < 2 ^ l.cfg.w := by
  obtain ⟨-, -, hi, -⟩ := h
  obtain ⟨cfg, algo, m⟩ := l
  cases algo with
  | bitSerial => exact Nat.xor_lt_two_pow hi (preload_lt _ _ _)
  | table => exact Nat.xor_lt_two_pow hi (preload_lt _ _ _)
  | optimizedTable => exact hi
  | reflectedTable => exact reflectW_lt _ _

/-- One byte step of a table variant keeps REG within `w` bits (R204). -/
theorem byteStep_lt {l : Latched} {r : Nat} (ha : l.algo ≠ .bitSerial) (hp : l.cfg.p < 2 ^ l.cfg.w)
    (hr : r < 2 ^ l.cfg.w) (a : Byte) : byteStep l r a < 2 ^ l.cfg.w := by
  obtain ⟨cfg, algo, m⟩ := l
  cases algo with
  | bitSerial => exact absurd rfl ha
  | table => exact tableStep_lt hp _ _
  | optimizedTable => exact optimizedStep_lt hp _ _
  | reflectedTable => exact reflectedStep_lt hp hr _

/-- The part of CONSUME's invariant that does not speak of REG, IDX and PHASE. -/
structure InProgress (s : State) (l : Latched) : Prop where
  builder : s.builder = none
  cache : CacheOk s
  holds : Holds s l
  legal : LegalCfg s.config l.cfg
  tbl : TblOk s l
  bitpos : l.algo = .bitSerial → ∃ b, s.bitpos = some b
  noResponse : NoResponse s

theorem InProgress.dropPin {s : State} {l : Latched} (h : InProgress s l) : InProgress (dropPin s) l :=
  ⟨h.builder, h.cache, h.holds, h.legal, h.tbl, h.bitpos, h.noResponse⟩

theorem InProgress.setBitpos {s : State} {l : Latched} (h : InProgress s l) (b : Fin 8) :
    InProgress { s with bitpos := some b } l :=
  ⟨h.builder, h.cache, h.holds, h.legal, h.tbl, fun _ => ⟨b, rfl⟩, h.noResponse⟩

/-- A request in progress meets the invariant at every unit of its stream, and at the stream's end (R31). -/
theorem InProgress.engineInv_atByte {s : State} {l : Latched} {k r : Nat} (h : InProgress s l)
    (hr : r < 2 ^ l.cfg.w) (hfirst : firstIdx l ≤ k) (hk : k ≤ (stream l).length) :
    EngineInv (atByte l k r s) := by
  refine ⟨h.builder, h.cache, phaseOk_nextPhase (k := k) rfl h.holds h.legal h.tbl ⟨r, rfl, hr⟩ rfl ?_ ?_
    h.bitpos h.noResponse⟩
  · intro hmore
    rw [bne_iff_ne] at hmore
    rw [streamLen_eq]
    omega
  · intro hend
    rw [streamLen_eq]
    simpa using hend

theorem atByte_self {s : State} {l : Latched} {k r : Nat} (hr : s.reg = some r) (hk : s.idx = some k)
    (hp : s.phase = nextPhase (k != (stream l).length)) : atByte l k r s = s := by
  rw [atByte, ← hr, ← hk, ← hp]

/-- INIT leaves a request in progress (R170, R180, R185, R190). -/
theorem inProgress_prepared {s : State} {l : Latched} (hbuilder : s.builder = none) (hcache : CacheOk s)
    (hh : Holds s l) (hl : LegalCfg s.config l.cfg) (htbl : s.tbl = none) (hn : NoResponse s) :
    InProgress (prepared l s) l := by
  have ⟨hw, hp, _, _⟩ := hl
  obtain ⟨h8, hmod, -⟩ := (widthAllowed_iff _ _).mp hw
  have hcache' : CacheOk (constructed (tableKey l) s) := constructed_cacheOk h8 hmod hp hcache
  obtain ⟨cfg, algo, m⟩ := l
  cases algo with
  | bitSerial => exact ⟨hbuilder, hcache, hh, hl, htbl, fun _ => ⟨7, rfl⟩, hn⟩
  | table => exact ⟨rfl, hcache', hh, hl, rfl, nofun, hn⟩
  | optimizedTable => exact ⟨rfl, hcache', hh, hl, rfl, nofun, hn⟩
  | reflectedTable => exact ⟨rfl, hcache', hh, hl, rfl, nofun, hn⟩

theorem step_init_goesOn {s : State} (hc : ResetClear s) (hp : s.phase = .init) (h : EngineInv s) :
    GoesOn (step s) := by
  obtain ⟨hbuilder, hcache, hphase⟩ := h
  rw [PhaseOk, hp] at hphase
  obtain ⟨l, hh, hl, -, -, -, htbl, hn⟩ := hphase
  have ⟨hallowed, hpoly, _, _⟩ := hl
  obtain ⟨hw, -, -⟩ := (widthAllowed_iff _ _).mp hallowed
  have hstep : step s = .next (atByte l (firstIdx l) (startReg l) (prepared l (dropPin s))) := by
    rw [step_of_clear hc, advance_init (s := dropPin s) hp]
    exact stepInit_eq hh hw hpoly fun _ => hcache
  have hready : InProgress (prepared l (dropPin s)) l := inProgress_prepared hbuilder hcache hh hl htbl hn
  have hle : firstIdx l ≤ (stream l).length := by rw [length_stream]; exact Nat.le_add_right _ _
  exact ⟨_, hstep, hready.engineInv_atByte (startReg_lt hl) le_rfl hle⟩

/-- In CONSUME a request is in progress at a unit of its stream. -/
theorem inProgress_of_consume {s : State} (hp : s.phase = .consume) (h : EngineInv s) :
    ∃ l k r, InProgress s l ∧ r < 2 ^ l.cfg.w ∧ firstIdx l ≤ k ∧ k < (stream l).length ∧ atByte l k r s = s := by
  obtain ⟨hbuilder, hcache, hphase⟩ := h
  rw [PhaseOk, hp] at hphase
  obtain ⟨l, hh, hl, ht, ⟨r, hreg, hr⟩, ⟨k, hidx, hfirst, hk⟩, hb, hn⟩ := hphase
  rw [streamLen_eq] at hk
  have hmore : s.phase = nextPhase (k != (stream l).length) := by rw [hp]; simp [nextPhase, hk.ne]
  exact ⟨l, k, r, ⟨hbuilder, hcache, hh, hl, ht, hb, hn⟩, hr, hfirst, hk, atByte_self hreg hidx hmore⟩

/-- CONSUME takes a bit or a byte, and there is one to take (R52, R172, R181, R186, R192). -/
theorem step_consume_goesOn {s : State} (hc : ResetClear s) (hp : s.phase = .consume) (h : EngineInv s) :
    GoesOn (step s) := by
  obtain ⟨l, k, r, hin, hr, hfirst, hk, hs⟩ := inProgress_of_consume hp h
  obtain ⟨-, hpoly, -, -⟩ := hin.legal
  by_cases ha : l.algo = .bitSerial
  · obtain ⟨b, hb⟩ := hin.bitpos ha
    have hbit : atBit l k b r s = s := by rw [atBit, ← hb]; exact hs
    have hstep := step_atBit (b := b) (r := r) hc ha hin.holds hk
    rw [hbit] at hstep
    refine ⟨_, hstep, (hin.dropPin.setBitpos _).engineInv_atByte (bitstep_lt hpoly _ _) ?_ ?_⟩ <;> split <;> omega
  · have hready : Ready (dropPin s) l := ⟨hin.holds, fun h => absurd h ha, fun _ => hin.tbl⟩
    have hstep := (step_atByte (r := r) hc hk).trans (stepConsume_atByte ha hready hk)
    rw [hs] at hstep
    exact ⟨_, hstep, hin.dropPin.engineInv_atByte (byteStep_lt ha hpoly hr _) (by omega) hk⟩

theorem step_final_goesOn {s : State} (hc : ResetClear s) (hp : s.phase = .final) (h : EngineInv s) :
    GoesOn (step s) := by
  obtain ⟨hbuilder, hcache, hphase⟩ := h
  rw [PhaseOk, hp] at hphase
  obtain ⟨l, hh, ⟨-, -, -, hx⟩, -, ⟨r, hreg, hr⟩, hidx, -⟩ := hphase
  rw [streamLen_eq] at hidx
  have hs : atByte l (stream l).length r s = s := atByte_self hreg hidx (by rw [hp]; simp [nextPhase])
  have hstep := step_final (r := r) hc hh
  rw [hs] at hstep
  obtain ⟨hcmd, hw, -⟩ := hh
  exact ⟨_, hstep, engineInv_respond hbuilder hcache hcmd (decodeWord_crcWord l.algo)
    ⟨_, _, hw, rfl, finish_lt _ hx hr⟩⟩

theorem step_done_goesOn {s : State} (hc : ResetClear s) (hp : s.phase = .done) (h : EngineInv s) :
    GoesOn (step s) := by
  obtain ⟨-, hcache, hphase⟩ := h
  rw [PhaseOk, hp] at hphase
  obtain ⟨ρ, hρ⟩ := ResponseOk.answers (s := dropPin s) hphase hp
  rw [step_of_clear hc, advance_done (s := dropPin s) hp, hρ.deliver_eq]
  exact ⟨_, rfl, engineInv_retire hcache⟩

/-! ### IDLE -/

/-- The step refuses the reserved command word of the host's next request (R90). -/
def RefusesReserved (s : State) : Prop :=
  ∃ r rest, Issues s r rest ∧ r.wf = false ∧ step s = .refused (.reservedCommand r.cmd)

theorem decode_of_not_wf {r : Request} (h : r.wf = false) : decode r = .error (.reserved r.cmd) := by
  rcases decodeWord_cases r.cmd with ⟨-, hword⟩ | ⟨hwf, -⟩
  · simp only [decode, hword]
  · exact absurd (h.symm.trans hwf) nofun

theorem step_of_reserved {s : State} {r : Request} {rest : List Request} (hi : Issues s r rest)
    (hc : ResetClear s) (h : r.wf = false) : step s = .refused (.reservedCommand r.cmd) := by
  obtain ⟨hp, hs⟩ := hi
  rw [step_of_clear hc, advance_idle (s := dropPin s) hp, acceptNext, dropPin_script, hs]
  simp only [decode_of_not_wf h]

/-- In IDLE the engine waits, accepts the host's request, or refuses a reserved word (R90, R160, R231). -/
theorem step_idle_goesOn_or_refuses {s : State} (hc : ResetClear s) (hp : s.phase = .idle) (h : EngineInv s) :
    GoesOn (step s) ∨ RefusesReserved s := by
  obtain ⟨hbuilder, hcache, hphase⟩ := h
  have hdead : Dead s := by rwa [PhaseOk, hp] at hphase
  cases hs : s.script with
  | nil =>
    have hwait : step s = .next (dropPin s) := by
      rw [step_of_clear hc, advance_idle (s := dropPin s) hp, acceptNext, dropPin_script, hs]
    exact .inl ⟨_, hwait, hbuilder, hcache, hphase⟩
  | cons r rest =>
    cases hwf : r.wf with
    | false => exact .inr ⟨r, rest, ⟨hp, hs⟩, hwf, step_of_reserved ⟨hp, hs⟩ hc hwf⟩
    | true =>
      obtain ⟨op, hd⟩ := decode_of_wf hwf
      rw [step_of_issues ⟨hp, hs⟩ hc hd]
      exact .inl (exec_goesOn (s := issued rest s) hp hbuilder hcache hdead _)

/-! ### Every step, and every number of steps -/

/-- From a state that meets the invariant a step goes on and keeps it, unless it refuses a reserved word. -/
theorem step_goesOn_or_refuses {s : State} (h : EngineInv s) : GoesOn (step s) ∨ RefusesReserved s := by
  rcases clear_or_reset s with hc | hr
  · cases hp : s.phase with
    | idle => exact step_idle_goesOn_or_refuses hc hp h
    | init => exact .inl (step_init_goesOn hc hp h)
    | consume => exact .inl (step_consume_goesOn hc hp h)
    | final => exact .inl (step_final_goesOn hc hp h)
    | done => exact .inl (step_done_goesOn hc hp h)
  · exact .inl ⟨_, step_of_reset hr, engineInv_assertReset _⟩

/-- Settles O12: a next state is what the step went on to. -/
theorem stepKeepsInvariant : Obligations.StepKeepsInvariant := by
  unfold Obligations.StepKeepsInvariant
  intro s t h hstep
  rcases step_goesOn_or_refuses h with ⟨u, hu, hinv⟩ | ⟨_, _, -, -, hrefused⟩
  · rw [hu] at hstep
    cases hstep
    exact hinv
  · rw [hrefused] at hstep
    cases hstep

/-- Settles O13: a step goes on or is refused, and neither is a fault. -/
theorem invariantRulesOutFaults : Obligations.InvariantRulesOutFaults := by
  unfold Obligations.InvariantRulesOutFaults
  intro s f h hfault
  rcases step_goesOn_or_refuses h with ⟨u, hu, -⟩ | ⟨_, _, -, -, hrefused⟩
  · rw [hu] at hfault
    cases hfault
  · rw [hrefused] at hfault
    cases hfault

/-- No phase's step puts a request on the script: it stays, or loses the request that is accepted (R96). -/
theorem advance_script_suffix {s t : State} (h : advance s = .next t) : t.script <:+ s.script := by
  cases hp : s.phase with
  | idle =>
    rw [advance_idle hp] at h
    rcases acceptNext_next h with ⟨-, rfl⟩ | ⟨r, rest, _, hs, -, he⟩
    · exact List.suffix_rfl
    · obtain ⟨-, -, hscript, -⟩ := exec_next he
      rw [hscript, hs]
      exact List.suffix_cons r rest
  | init =>
    rw [advance_init hp] at h
    obtain ⟨_, _, _, _, _, _, _, -, rfl⟩ := stepInit_next h
    exact List.suffix_rfl
  | consume =>
    rw [advance_consume hp] at h
    obtain ⟨_, _, _, _, rfl⟩ := stepConsume_next h
    exact List.suffix_rfl
  | final =>
    rw [advance_final hp] at h
    obtain ⟨_, rfl⟩ := stepFinal_next h
    exact List.suffix_rfl
  | done =>
    rw [advance_done hp] at h
    obtain ⟨_, -, rfl⟩ := deliver_next h
    exact List.suffix_rfl

theorem step_script_suffix {s t : State} (h : step s = .next t) : t.script <:+ s.script := by
  rcases clear_or_reset s with hc | hr
  · rw [step_of_clear hc] at h
    exact advance_script_suffix (s := dropPin s) h
  · rw [step_of_reset hr] at h
    cases h
    exact List.suffix_rfl

theorem scriptWf_of_suffix {l l' : List Request} (h : Script.wf l = true) (hl : l' <:+ l) :
    Script.wf l' = true := by
  rw [Script.wf, List.all_eq_true] at h ⊢
  exact fun r hr => h r (hl.subset hr)

/-- A script without reserved words leaves a step only the way on. -/
theorem step_goesOn_of_wf {s : State} (h : EngineInv s) (hwf : Script.wf s.script = true) : GoesOn (step s) := by
  refine (step_goesOn_or_refuses h).resolve_right ?_
  rintro ⟨r, rest, ⟨-, hs⟩, hr, -⟩
  rw [hs, Script.wf, List.all_cons, hr] at hwf
  cases hwf

/-- Settles O15, by induction on the number of steps: each goes on to a state that meets the invariant, and the
script only loses requests. -/
theorem wellFormedScriptsNeverStop : Obligations.WellFormedScriptsNeverStop := by
  unfold Obligations.WellFormedScriptsNeverStop
  intro n
  induction n with
  | zero => exact fun s h hwf => ⟨s, rfl, h, hwf⟩
  | succ n ih =>
    intro s h hwf
    obtain ⟨u, hu, hinv⟩ := step_goesOn_of_wf h hwf
    rw [run_succ hu]
    exact ih u hinv (scriptWf_of_suffix hwf (step_script_suffix hu))

/-! ### What the later steps of a request leave, and unwritten registers -/

/-- Settles O46: INIT, CONSUME and FINAL write only the registers that the lemma of each names. -/
theorem latchedRequestIsImmutable : Obligations.LatchedRequestIsImmutable := by
  unfold Obligations.LatchedRequestIsImmutable
  intro s t hc hphase h
  rw [step_of_clear hc] at h
  rcases hphase with hp | hp | hp
  · rw [advance_init (s := dropPin s) hp] at h
    obtain ⟨_, _, _, _, _, _, _, -, rfl⟩ := stepInit_next h
    simp [hp]
  · rw [advance_consume (s := dropPin s) hp] at h
    obtain ⟨_, _, _, _, rfl⟩ := stepConsume_next h
    simp [hp]
  · rw [advance_final (s := dropPin s) hp] at h
    obtain ⟨_, rfl⟩ := stepFinal_next h
    simp [hp]

/-- A read is the fault when its register holds no value, or when what follows the read is one (R40). -/
theorem readReg_faults {α : Type} {r : Reg} {v : Option α} {k : α → StepOutcome}
    (h : v = none ∨ ∀ a, ∃ q, k a = .fault (.unwritten q)) : ∃ q, readReg r v k = .fault (.unwritten q) := by
  cases v with
  | none => exact ⟨r, rfl⟩
  | some a => exact h.resolve_left nofun a

/-- FINAL reads its five registers one after the other; the first that holds no value is the fault. -/
theorem stepFinal_unwritten {s : State}
    (h : s.cfgAlgo = none ∨ s.cfgW = none ∨ s.cfgRefout = none ∨ s.cfgX = none ∨ s.reg = none) :
    ∃ q, stepFinal s = .fault (.unwritten q) :=
  readReg_faults <| h.imp_right fun h _ => readReg_faults <| h.imp_right fun h _ =>
    readReg_faults <| h.imp_right fun h _ => readReg_faults <| h.imp_right fun h _ => readReg_faults (.inl h)

/-- Settles O17: FINAL by its chain of reads, the delivery by its reads of RSP.STATUS and RSP.VALUE. -/
theorem unwrittenRegistersFault : Obligations.UnwrittenRegistersFault := by
  unfold Obligations.UnwrittenRegistersFault
  refine ⟨fun s hp hc h => ?_, fun s hp hc hstatus => ?_, fun s hp hc hstatus hvalue => ?_⟩
  · rw [step_of_clear hc, advance_final (s := dropPin s) hp]
    exact stepFinal_unwritten (s := dropPin s) h
  · rw [step_of_clear hc, advance_done (s := dropPin s) hp, deliver, dropPin_rspStatus, hstatus, readReg_none]
  · rw [step_of_clear hc, advance_done (s := dropPin s) hp, deliver, dropPin_rspStatus, hstatus, readReg_some,
      dropPin_rspValue, hvalue, readReg_none]

end Sys2Proof.Machine

/-! ## The two data spaces: the message and the table cache -/

namespace Sys2Proof.Machine

/-- A read of a stream at or past its end is the fault of the index (R52). -/
theorem readStream_of_length_le {l : List Byte} {j : Nat} (h : l.length ≤ j) (k : Byte → StepOutcome) :
    readStream l j k = .fault (.msgReadOutOfRange j) := by
  simp [readStream, msgRead, List.getElem?_eq_none h]

/-- CONSUME of the two variants that index MSG itself reads MSG last, and stops there when IDX is outside it. -/
theorem stepConsume_of_msg_length_le {s : State} {l : Latched} {t : Table} {r j : Nat} (hl : Holds s l)
    (ha : l.algo = .optimizedTable ∨ l.algo = .reflectedTable) (ht : s.tbl = some t) (hr : s.reg = some r)
    (hi : s.idx = some j) (hj : l.msg.length ≤ j) : stepConsume s = .fault (.msgReadOutOfRange j) := by
  obtain ⟨-, hw, -, -, -, hrefin, -, halgo, hmsg⟩ := hl
  rcases ha with ha | ha <;> rw [ha] at halgo
  · simp only [stepConsume, consumeOptimized, halgo, hw, hrefin, hmsg, hi, hr, ht, readReg_some]
    exact readStream_of_length_le hj _
  · simp only [stepConsume, consumeReflected, halgo, hrefin, hmsg, hi, hr, ht, readReg_some]
    exact readStream_of_length_le hj _

/-- Settles O18: the step is CONSUME's, and the sample of the reset input it takes is none of the registers read. -/
theorem msgReadOutsideTheMessageFaults : Obligations.MsgReadOutsideTheMessageFaults := by
  unfold Obligations.MsgReadOutsideTheMessageFaults
  intro s l t r j hp hc hl ha ht hr hi hj
  rw [step_of_clear hc, advance_consume (s := dropPin s) hp]
  exact stepConsume_of_msg_length_le (s := dropPin s) hl ha ht hr hi hj

/-- In every phase the cache only grows, and not at all in a realisation without one (R58). -/
theorem advance_cacheGrew {s t : State} (h : advance s = .next t) : CacheGrew s t.cache := by
  cases hp : s.phase with
  | idle =>
    rw [advance_idle hp] at h
    rcases acceptNext_next h with ⟨-, rfl⟩ | ⟨_, _, _, -, -, he⟩
    · exact CacheGrew.refl t
    · obtain ⟨-, -, -, -, -, hgrew⟩ := exec_next he
      exact hgrew
  | init =>
    rw [advance_init hp] at h
    obtain ⟨_, _, _, _, _, _, _, hgrew, rfl⟩ := stepInit_next h
    exact hgrew
  | consume =>
    rw [advance_consume hp] at h
    obtain ⟨_, _, _, _, rfl⟩ := stepConsume_next h
    exact CacheGrew.refl s
  | final =>
    rw [advance_final hp] at h
    obtain ⟨_, rfl⟩ := stepFinal_next h
    exact CacheGrew.refl s
  | done =>
    rw [advance_done hp] at h
    obtain ⟨_, -, rfl⟩ := deliver_next h
    exact CacheGrew.refl s

/-- Taking the sample of the reset input leaves the cache, so a step without reset does what its phase does. -/
theorem step_cacheGrew {s t : State} (hc : ResetClear s) (h : step s = .next t) : CacheGrew s t.cache := by
  rw [step_of_clear hc] at h
  exact advance_cacheGrew (s := dropPin s) h

/-- Settles O35: without reset the cache grows as `CacheGrew` says, and reset empties it (R68, R243). -/
theorem cacheEntriesAreNeverChanged : Obligations.CacheEntriesAreNeverChanged := by
  unfold Obligations.CacheEntriesAreNeverChanged
  intro s t h
  refine ⟨fun hc => (step_cacheGrew hc h).1, fun hr => ?_, fun hu hc => (step_cacheGrew hc h).2 hu⟩
  rw [step_of_reset hr] at h
  cases h
  exact assertReset_cache _

end Sys2Proof.Machine

/-! ## Decoding and encoding -/

namespace Sys2Proof.Machine

/-- The operation of an instruction, without its operands (R87). -/
def opcodeOf (i : Instr) : Opcode :=
  match i with
  | .rfb _ => .rfb
  | .rfw _ _ => .rfw
  | .rfs _ => .rfs
  | .bldD _ _ => .bld false
  | .bldR _ _ => .bld true
  | .crcBS _ => .crc .bitSerial
  | .crcTB _ => .crc .table
  | .crcOT _ => .crc .optimizedTable
  | .crcRT _ => .crc .reflectedTable

/-- The operation `assemble` is given comes back, whatever the ports carry. -/
@[simp] theorem opcodeOf_assemble (op : Opcode) (p : Ports) : opcodeOf (op.assemble p) = op := by
  cases op with
  | bld reflected => cases reflected <;> rfl
  | crc algo => cases algo <;> rfl
  | _ => rfl

@[simp] theorem decodeWord_encodeWord (i : Instr) : decodeWord (encodeWord i) = .ok (opcodeOf i) := by
  cases i <;> rfl

@[simp] theorem assemble_encodePorts (i : Instr) : (opcodeOf i).assemble (encodePorts i) = i := by
  cases i <;> rfl

/-- A word that spells an operation is the one the encoder writes for it, whatever the operands (R87, R93). -/
theorem eq_encodeWord_of_decodeWord {c : CmdWord} {op : Opcode} (h : decodeWord c = .ok op) (p : Ports) :
    c = encodeWord (op.assemble p) := by
  rcases decodeWord_cases c with ⟨-, hd⟩ | ⟨-, hd⟩
  · cases hd.symm.trans h
  · rcases hd with ⟨hc, hd⟩ | ⟨hc, hd⟩ | ⟨hc, hd⟩ | ⟨hc, hd⟩ | ⟨hc, hd⟩ | ⟨hc, hd⟩ | ⟨hc, hd⟩ | ⟨hc, hd⟩ | ⟨hc, hd⟩ <;>
      cases hd.symm.trans h <;> exact hc

/-- Ports agree where the command reads them exactly when it makes the same instruction of both (R83). -/
theorem sameReadPorts_iff (i : Instr) (p q : Ports) :
    SameReadPorts i p q ↔ (opcodeOf i).assemble p = (opcodeOf i).assemble q := by
  cases i <;> simp [SameReadPorts, opcodeOf, Opcode.assemble]

theorem decode_eq_ok_iff_assemble (r : Request) (i : Instr) :
    decode r = .ok i ↔ r.cmd = encodeWord i ∧ (opcodeOf i).assemble r.ports = i := by
  constructor
  · intro h
    unfold decode at h
    split at h
    · rename_i op hop
      cases h
      exact ⟨eq_encodeWord_of_decodeWord hop r.ports, by rw [opcodeOf_assemble]⟩
    · cases h
  · rintro ⟨hcmd, hports⟩
    simp only [decode, hcmd, decodeWord_encodeWord, hports]

/-- A request decodes to `i` exactly when it carries the word of `i` and, on the ports its command reads, the operands
of `i` (R83, R93). -/
theorem decode_eq_ok_iff (r : Request) (i : Instr) :
    decode r = .ok i ↔ r.cmd = encodeWord i ∧ SameReadPorts i r.ports (encodePorts i) := by
  rw [decode_eq_ok_iff_assemble, sameReadPorts_iff, assemble_encodePorts]

/-- Settles O2: each clause is a direction of `decode_eq_ok_iff`. -/
theorem decodeAndEncodeAgree : Obligations.DecodeAndEncodeAgree := by
  unfold Obligations.DecodeAndEncodeAgree
  refine ⟨fun i => ?_, fun r i h => (decode_eq_ok_iff r i).mp h, fun i p h => (decode_eq_ok_iff _ i).mpr ⟨rfl, h⟩⟩
  exact (decode_eq_ok_iff _ i).mpr ⟨rfl, (sameReadPorts_iff _ _ _).mpr rfl⟩

/-! ### Reserved words -/

theorem length_reserved_words :
    ((List.range 256).filter fun n => !CmdWord.wf (BitVec.ofNat 8 n)).length = 247 := by
  decide +kernel

/-- The CLASS and SUB format admits the words the decoder knows, and no other (R81, R90, R93). -/
theorem wf_iff_decodes (r : Request) : r.wf = true ↔ ∃ i, decode r = .ok i := by
  constructor
  · intro h
    obtain ⟨op, hd⟩ := decode_of_wf h
    exact ⟨_, hd⟩
  · rintro ⟨i, hd⟩
    by_contra hwf
    rw [decode_of_not_wf (Bool.eq_false_of_not_eq_true hwf)] at hd
    cases hd

/-- Settles O3: the words are counted, and a reserved word neither decodes nor has a step. -/
theorem reservedWordsAreRefused : Obligations.ReservedWordsAreRefused := by
  unfold Obligations.ReservedWordsAreRefused
  exact ⟨length_reserved_words, wf_iff_decodes, fun _ _ _ hi hc h => step_of_reserved hi hc h⟩

/-- Settles O14: a step that does not go on is the refusal of the reserved word the host issues. -/
theorem onlyReservedWordsAreRefused : Obligations.OnlyReservedWordsAreRefused := by
  unfold Obligations.OnlyReservedWordsAreRefused
  intro s ρ h hρ
  rcases step_goesOn_or_refuses h with ⟨t, ht, -⟩ | ⟨r, rest, hi, hwf, hstep⟩
  · rw [ht] at hρ
    cases hρ
  · rw [hstep] at hρ
    cases hρ
    exact ⟨r, rest, hi, hwf, rfl⟩

/-! ### Ignored ports and words written out -/

/-- Ports that agree where the command reads them give the same instruction (R83). -/
theorem decode_of_sameReadPorts {r : Request} {i : Instr} {p : Ports} (hd : decode r = .ok i)
    (hp : SameReadPorts i r.ports p) : decode { cmd := r.cmd, ports := p } = .ok i := by
  rw [decode_eq_ok_iff_assemble] at hd ⊢
  obtain ⟨hcmd, hports⟩ := hd
  exact ⟨hcmd, ((sameReadPorts_iff i _ _).mp hp).symm.trans hports⟩

/-- Settles O5: both requests decode to `i`, and the step that accepts one is `exec i` on a state without it. -/
theorem ignoredPortsChangeNothing : Obligations.IgnoredPortsChangeNothing := by
  unfold Obligations.IgnoredPortsChangeNothing
  intro s r rest i p hi hc hd hp
  have ⟨hidle, _⟩ := hi
  have hi' : Issues { s with script := { cmd := r.cmd, ports := p } :: rest } { cmd := r.cmd, ports := p } rest :=
    ⟨hidle, rfl⟩
  rw [step_of_issues hi hc hd, step_of_issues hi' hc (decode_of_sameReadPorts hd hp)]
  rfl

/-- Settles O1: each word is a row of the decoder's table, or none (R93). -/
theorem commandWordsDecodeAsListed : Obligations.CommandWordsDecodeAsListed := by
  unfold Obligations.CommandWordsDecodeAsListed
  exact ⟨rfl, rfl, rfl, rfl, rfl, rfl, rfl, rfl, rfl⟩

end Sys2Proof.Machine

/-! ## The bit reflector -/

namespace Sys2Proof.Machine

/-! ### Reflection -/

/-- Settles O20: `testBit_reflect8` and `testBit_reflectW` in the spelling of R14. -/
theorem reflectionReversesBits : Obligations.ReflectionReversesBits := by
  unfold Obligations.ReflectionReversesBits
  refine ⟨fun b i hi => ?_, fun x n i hi => ?_, fun x n i hi => ?_⟩
  · rw [bitAt_eq, bitAt_eq, testBit_reflect8, decide_eq_true hi, Bool.true_and]
  · rw [bitAt_eq, bitAt_eq, testBit_reflectW, decide_eq_true hi, Bool.true_and]
  · rw [bitAt_eq, testBit_reflectW, decide_eq_false (Nat.not_lt.mpr hi), Bool.false_and, Bool.toNat_false]

/-- Reflecting twice keeps the low `n` bits and drops the others (R111, R115). -/
theorem reflectW_reflectW (x n : Nat) : reflectW (reflectW x n) n = x &&& mask n := by
  refine Nat.eq_of_testBit_eq fun j => ?_
  rw [testBit_reflectW, testBit_reflectW, testBit_and_mask]
  by_cases hj : j < n
  · have hlt : n - 1 - j < n := by omega
    have hback : n - 1 - (n - 1 - j) = j := by omega
    simp [hj, hlt, hback]
  · simp [hj]

/-- Settles O21: an operand below `2^n` is its own low `n` bits. -/
theorem reflectionIsAnInvolution : Obligations.ReflectionIsAnInvolution := by
  unfold Obligations.ReflectionIsAnInvolution
  exact ⟨reflect8_reflect8, fun x n hx => by rw [reflectW_reflectW, and_mask_of_lt hx]⟩

/-- Settles O22: both have bit `7 - i` of the byte as bit `i`. -/
theorem widthEightReflectionIsByteReflection : Obligations.WidthEightReflectionIsByteReflection := by
  unfold Obligations.WidthEightReflectionIsByteReflection
  intro b
  refine Nat.eq_of_testBit_eq fun i => ?_
  rw [testBit_reflectW, testBit_reflect8]

/-! ### The register laws of ReflectedTable -/

theorem testBit_top8 {w : Nat} (hw : 8 ≤ w) (r i : Nat) :
    (top8 w r).toNat.testBit i = (decide (i < 8) && r.testBit (w - 8 + i)) := by
  rw [top8_toNat w r hw, Nat.testBit_mod_two_pow, Nat.testBit_shiftRight]

theorem low8_toNat (r : Nat) : (low8 r).toNat = r % 2 ^ 8 := by
  rw [low8, field, BitVec.toNat_ofNat, Nat.shiftRight_zero, Nat.and_two_pow_sub_one_eq_mod, Nat.mod_mod]

theorem testBit_low8 (r i : Nat) : (low8 r).toNat.testBit i = (decide (i < 8) && r.testBit i) := by
  rw [low8_toNat, Nat.testBit_mod_two_pow]

/-- Shifting the register left by a byte shifts its reflection right by one (R117). -/
theorem reflectW_shiftLeft_mask (w r : Nat) :
    reflectW ((r <<< 8) &&& mask w) w = reflectW r w >>> 8 := by
  refine Nat.eq_of_testBit_eq fun j => ?_
  rw [testBit_reflectW, testBit_and_mask, Nat.testBit_shiftLeft, Nat.testBit_shiftRight, testBit_reflectW]
  by_cases hj : 8 + j < w
  · have hlow : j < w := by omega
    have hmask : w - 1 - j < w := by omega
    have hbyte : 8 ≤ w - 1 - j := by omega
    have hsame : w - 1 - j - 8 = w - 1 - (8 + j) := by omega
    simp [hj, hlow, hmask, hbyte, hsame]
  · have hbyte : ¬ 8 ≤ w - 1 - j := by omega
    simp [hj, hbyte]

/-- The byte that leaves the register on the left leaves its reflection on the right, with its bits reversed (R117). -/
theorem top8_eq_reflect8_low8 {w : Nat} (hw : 8 ≤ w) (r : Nat) :
    top8 w r = reflect8 (low8 (reflectW r w)) := by
  refine BitVec.eq_of_toNat_eq (Nat.eq_of_testBit_eq fun i => ?_)
  rw [testBit_top8 hw, testBit_reflect8, testBit_low8, testBit_reflectW]
  by_cases hi : i < 8
  · have hbyte : 7 - i < 8 := by omega
    have hlow : 7 - i < w := by omega
    have hsame : w - 1 - (7 - i) = w - 8 + i := by omega
    simp [hi, hbyte, hlow, hsame]
  · simp [hi]

theorem reflectW_xor (w a b : Nat) : reflectW (a ^^^ b) w = reflectW a w ^^^ reflectW b w := by
  refine Nat.eq_of_testBit_eq fun j => ?_
  rw [Nat.testBit_xor, testBit_reflectW, testBit_reflectW, testBit_reflectW, Nat.testBit_xor,
    Bool.and_xor_distrib_left]

/-- Settles O23: the laws hold of every register, and ask of the width only that it holds a byte. -/
theorem reflectedRegisterLaws : Obligations.ReflectedRegisterLaws := by
  unfold Obligations.ReflectedRegisterLaws
  exact ⟨fun w r hw _ _ => ⟨reflectW_shiftLeft_mask w r, top8_eq_reflect8_low8 hw r⟩, reflectW_xor⟩

/-! ### RFB, RFW and RFS -/

/-- Settles O24: RFB's meaning after the accept step, which writes CMD (R160). -/
theorem rfbReflectsItsByte : Obligations.RfbReflectsItsByte := by
  unfold Obligations.RfbReflectsItsByte
  refine ⟨rfl, fun b s hp => ?_⟩
  rw [exec, execRfb, accept_idle hp, respond]

/-- Settles O25: RFW's meaning after the accept step, which writes CMD (R160). -/
theorem rfwReflectsTheLowBits : Obligations.RfwReflectsTheLowBits := by
  unfold Obligations.RfwReflectsTheLowBits
  refine ⟨rfl, fun x n s hp => ?_⟩
  rw [exec, execRfw, accept_idle hp, respond]

/-- RFS on a valid sequence: MSG holds it and the response is its reflection (R114). -/
theorem exec_rfs_of_valid {s : State} {seq : List Elem} {m : List Byte} (hp : s.phase = .idle)
    (hm : validBytes seq = some m) :
    exec (.rfs seq) s = .next (respond (.bytes (m.map reflect8)) { s with cmd := some 0x30, msg := some m }) := by
  simp only [exec, execRfs, accept_idle hp, hm]

/-- RFS on any other sequence: the error exit, and no message (R213, R216). -/
theorem exec_rfs_of_invalid {s : State} {seq : List Elem} (hp : s.phase = .idle) (hm : validBytes seq = none) :
    exec (.rfs seq) s = .next (raise .invalidMessageElement { s with cmd := some 0x30 }) := by
  simp only [exec, execRfs, accept_idle hp, hm]

/-- Settles O26: the elements of a byte list are all valid, and one invalid element leaves no message. -/
theorem rfsReflectsOrRejectsItsSequence : Obligations.RfsReflectsOrRejectsItsSequence := by
  unfold Obligations.RfsReflectsOrRejectsItsSequence
  refine ⟨rfl, fun m s hp => ?_, fun seq s hp hbad => ?_⟩
  · rw [exec_rfs_of_valid hp (validBytes_byteElems m), respond]
  · rw [exec_rfs_of_invalid hp (validBytes_of_invalid hbad), raise]

end Sys2Proof.Machine

/-! ## The table builder -/

namespace Sys2Proof.Machine

/-! ### Entries as remainders over GF(2) -/

/-- The modulus `G(x) = x^w + P(x)` of R135. -/
noncomputable def modulus (w p : Nat) : Polynomial (ZMod 2) := Polynomial.X ^ w + polyOf p

theorem coeff_polyOf (v i : Nat) : (polyOf v).coeff i = if v.testBit i then 1 else 0 := by
  have hterm : ∀ j, (if v.testBit j then (Polynomial.X ^ j : Polynomial (ZMod 2)) else 0).coeff i =
      if i = j then (if v.testBit j then 1 else 0) else 0 := by
    intro j
    cases v.testBit j <;> simp [Polynomial.coeff_X_pow]
  rw [polyOf, Polynomial.finsetSum_coeff, Finset.sum_congr rfl fun j _ => hterm j, Finset.sum_ite_eq]
  by_cases hi : i < v.size
  · simp [hi]
  · have hv : v.testBit i = false := Nat.testBit_lt_two_pow (Nat.size_le.mp (Nat.not_lt.mp hi))
    simp [hv]

theorem polyOf_xor (a b : Nat) : polyOf (a ^^^ b) = polyOf a + polyOf b := by
  ext i
  rw [Polynomial.coeff_add, coeff_polyOf, coeff_polyOf, coeff_polyOf, Nat.testBit_xor]
  cases a.testBit i <;> cases b.testBit i <;> decide

theorem polyOf_shiftLeft (v k : Nat) : polyOf (v <<< k) = polyOf v * Polynomial.X ^ k := by
  ext i
  rw [Polynomial.coeff_mul_X_pow', coeff_polyOf, coeff_polyOf, Nat.testBit_shiftLeft]
  by_cases hk : k ≤ i <;> simp [hk]

theorem polyOf_two_pow (k : Nat) : polyOf (2 ^ k) = Polynomial.X ^ k := by
  ext i
  simp [coeff_polyOf, Polynomial.coeff_X_pow, Nat.testBit_two_pow, eq_comm]

theorem degree_polyOf_lt {v w : Nat} (h : v < 2 ^ w) : (polyOf v).degree < w := by
  rw [Polynomial.degree_lt_iff_coeff_zero]
  intro i hi
  have hv : v.testBit i = false := Nat.testBit_lt_two_pow (Nat.lt_of_lt_of_le h (Nat.pow_le_pow_right (by decide) hi))
  rw [coeff_polyOf, hv, if_neg Bool.false_ne_true]

theorem modulus_monic {w p : Nat} (hp : p < 2 ^ w) : (modulus w p).Monic :=
  Polynomial.monic_X_pow_add (degree_polyOf_lt hp)

theorem degree_modulus {w p : Nat} (hp : p < 2 ^ w) : (modulus w p).degree = w := by
  have hlow : (polyOf p).degree < (Polynomial.X ^ w : Polynomial (ZMod 2)).degree := by
    rw [Polynomial.degree_X_pow]
    exact degree_polyOf_lt hp
  rw [modulus, Polynomial.degree_add_eq_left_of_degree_lt hlow, Polynomial.degree_X_pow]

/-- A register shifted left is its low `w` bits and the bit that left them. -/
theorem shiftLeft_one_eq {w r : Nat} (hw : 1 ≤ w) (hr : r < 2 ^ w) :
    r <<< 1 = ((r <<< 1) &&& mask w) ^^^ (if r.testBit (w - 1) then 2 ^ w else 0) := by
  refine Nat.eq_of_testBit_eq fun i => ?_
  have hout : (if r.testBit (w - 1) then 2 ^ w else 0).testBit i = (decide (w = i) && r.testBit (w - 1)) := by
    cases r.testBit (w - 1) <;> simp [Nat.testBit_two_pow]
  rw [Nat.testBit_xor, testBit_and_mask, hout, Nat.testBit_shiftLeft]
  rcases Nat.lt_trichotomy i w with hi | rfl | hi
  · have hne : w ≠ i := by omega
    simp [hi, hne]
  · simp [hw]
  · have hr' : r.testBit (i - 1) = false :=
      Nat.testBit_lt_two_pow (Nat.lt_of_lt_of_le hr (Nat.pow_le_pow_right (by decide) (by omega)))
    have hne : w ≠ i := by omega
    simp [hr', hne]

/-- A step subtracts `G` from `r·x` exactly when the bit that leaves the register is 1 (R132, R135). -/
theorem polyOf_mul_X {w p r : Nat} (hw : 1 ≤ w) (hr : r < 2 ^ w) :
    polyOf r * Polynomial.X = polyOf (step1 w p r) + (if r.testBit (w - 1) then modulus w p else 0) := by
  have hshift : polyOf r * Polynomial.X =
      polyOf ((r <<< 1) &&& mask w) + polyOf (if r.testBit (w - 1) then 2 ^ w else 0) := by
    rw [← polyOf_xor, ← shiftLeft_one_eq hw hr, polyOf_shiftLeft, pow_one]
  rw [hshift, step1_eq]
  cases r.testBit (w - 1) with
  | false => simp [polyOf]
  | true =>
    rw [if_pos rfl, if_pos rfl, if_pos rfl, polyOf_xor, polyOf_two_pow, modulus, add_assoc,
      add_left_comm (polyOf p), CharTwo.add_self_eq_zero, add_zero]

/-- `k` steps multiply by `x^k`, up to a multiple of `G`. -/
theorem modulus_dvd_step1_iterate {w p r : Nat} (hw : 1 ≤ w) (hp : p < 2 ^ w) (hr : r < 2 ^ w) (k : Nat) :
    modulus w p ∣ polyOf r * Polynomial.X ^ k - polyOf ((step1 w p)^[k] r) := by
  induction k with
  | zero => simp
  | succ k ih =>
    have hstep := polyOf_mul_X (p := p) hw (step1_iterate_lt hp hr k)
    have hsplit : polyOf r * Polynomial.X ^ (k + 1) - polyOf ((step1 w p)^[k + 1] r) =
        (polyOf r * Polynomial.X ^ k - polyOf ((step1 w p)^[k] r)) * Polynomial.X +
          (if ((step1 w p)^[k] r).testBit (w - 1) then modulus w p else 0) := by
      rw [Function.iterate_succ_apply', pow_succ, sub_mul, hstep]
      ring
    rw [hsplit]
    refine dvd_add (Dvd.dvd.mul_right ih _) ?_
    split
    · exact dvd_rfl
    · exact dvd_zero _

/-- `k` steps multiply by `x^k` modulo `G` (R135). -/
theorem polyOf_step1_iterate {w p r : Nat} (hw : 1 ≤ w) (hp : p < 2 ^ w) (hr : r < 2 ^ w) (k : Nat) :
    polyOf ((step1 w p)^[k] r) = (polyOf r * Polynomial.X ^ k) %ₘ modulus w p := by
  have hsmall : (polyOf ((step1 w p)^[k] r)).degree < (modulus w p).degree := by
    rw [degree_modulus hp]
    exact degree_polyOf_lt (step1_iterate_lt hp hr k)
  rw [Polynomial.modByMonic_eq_of_dvd_sub (modulus_monic hp) (modulus_dvd_step1_iterate hw hp hr k),
    (Polynomial.modByMonic_eq_self_iff (modulus_monic hp)).mpr hsmall]

/-- Settles O28: a step is `k = 1`; an entry is eight steps from the seed, which is `c·x^(w-8)`. -/
theorem tableEntriesAreRemainders : Obligations.TableEntriesAreRemainders := by
  unfold Obligations.TableEntriesAreRemainders
  intro w p hw _ hp
  have hw1 : 1 ≤ w := by omega
  refine ⟨fun r hr => ?_, fun c => ?_⟩
  · have h := polyOf_step1_iterate hw1 hp hr 1
    rwa [pow_one] at h
  · have hexp : w - 8 + 8 = w := by omega
    rw [tblRead_directTable_of_lt hp, entry, polyOf_step1_iterate hw1 hp (seed_lt hw c), polyOf_shiftLeft,
      mul_assoc, ← pow_add, hexp, modulus]

/-! ### Entries of the direct and of the reflected table -/

/-- An entry is linear in its control byte (R136). -/
theorem entry_xor (w p : Nat) (a b : Byte) : entry w p (a ^^^ b) = entry w p a ^^^ entry w p b := by
  rw [entry, BitVec.toNat_xor, Nat.shiftLeft_xor_distrib, step1_iterate_xor, entry, entry]

/-- The only bit of the seed 1 reaches the top after seven steps, and the eighth leaves the polynomial (R136). -/
theorem entry_one {w p : Nat} (hw : 8 ≤ w) : entry w p 1 = p := by
  have hseed : (1 : Byte).toNat <<< (w - 8) = 2 ^ (w - 8) := Nat.one_shiftLeft _
  have hlow : 2 ^ (w - 8) < 2 ^ (w - 7) := Nat.pow_lt_pow_right (by decide) (by omega)
  have htop : 2 ^ (w - 8) <<< 7 = 2 ^ (w - 1) := by
    rw [Nat.shiftLeft_eq, ← Nat.pow_add]
    congr 1
    omega
  have hout : 2 ^ (w - 1) <<< 1 = 2 ^ w := by
    rw [Nat.shiftLeft_eq, ← Nat.pow_add]
    congr 1
    omega
  rw [entry, hseed, Function.iterate_succ_apply', step1_iterate_of_lt 7 (by omega) hlow, htop, step1_eq, hout,
    and_mask, Nat.mod_self, Nat.testBit_two_pow_self, if_pos rfl, Nat.zero_xor]

/-- Settles O27: the laws of `entry`, which masking leaves as it is. -/
theorem directTableLaws : Obligations.DirectTableLaws := by
  unfold Obligations.DirectTableLaws
  intro w p hw _ hp
  simp only [tblRead_directTable_of_lt hp]
  exact ⟨entry_zero hw, entry_lt hp, entry_xor w p, entry_one hw⟩

/-- Entry `reflect8(c)` of a reflected table is the reflection of entry `c` of the direct one (R138). -/
theorem tblRead_reflectedTable_reflect8 (w p : Nat) (c : Byte) :
    tblRead (reflectedTable w p) (reflect8 c) = reflectW (tblRead (directTable w p) c) w := by
  rw [reflectedTable, tblRead_reflectTable, reflect8_reflect8]

@[simp] theorem reflectW_zero (w : Nat) : reflectW 0 w = 0 := by
  refine Nat.eq_of_testBit_eq fun j => ?_
  rw [testBit_reflectW, Nat.zero_testBit, Nat.zero_testBit, Bool.and_false]

/-- Settles O29: entry 0 is written at `reflect8(0)` and entry 1, the polynomial, at `reflect8(1) = 0x80`. -/
theorem reflectedTableEntries : Obligations.ReflectedTableEntries := by
  unfold Obligations.ReflectedTableEntries
  intro w p hw _ hp
  have hzero := tblRead_reflectedTable_reflect8 w p 0
  have hone := tblRead_reflectedTable_reflect8 w p 1
  rw [tblRead_directTable_of_lt hp, entry_zero hw, reflectW_zero] at hzero
  rw [tblRead_directTable_of_lt hp, entry_one hw] at hone
  exact ⟨tblRead_reflectedTable_reflect8 w p, hzero, hone, reflectedTable_lt hp⟩

/-! ### BLD.D and BLD.R -/

theorem exec_bldD {s : State} (hp : s.phase = .idle) (poly : Nat) (v : WidthPort) :
    exec (.bldD poly v) s = buildRequest false poly v { s with cmd := some 0x40 } := accept_idle hp _

theorem exec_bldR {s : State} (hp : s.phase = .idle) (poly : Nat) (v : WidthPort) :
    exec (.bldR poly v) s = buildRequest true poly v { s with cmd := some 0x41 } := accept_idle hp _

/-- Settles O31: a build with a legal width responds with the finished table of its key, here the direct one. -/
theorem bldDBuildsTheDirectTable : Obligations.BldDBuildsTheDirectTable := by
  unfold Obligations.BldDBuildsTheDirectTable
  intro s poly w hp hc hw
  have hc' : CacheOk { s with cmd := some 0x40 } := hc
  have hexec := (exec_bldD hp poly (some w)).trans (buildRequest_legal hc' (legalWidth_of_legal hw))
  exact ⟨_, directTable w (poly &&& mask w), hexec, rfl, rfl, rfl, rfl, rfl, rfl, rfl,
    tblRead_directTable_of_lt (and_mask_lt poly w)⟩

/-- Settles O32: a build with a legal width responds with the finished table of its key, here the reflected one. -/
theorem bldRBuildsTheReflectedTable : Obligations.BldRBuildsTheReflectedTable := by
  unfold Obligations.BldRBuildsTheReflectedTable
  intro s poly w hp hc hw
  have hc' : CacheOk { s with cmd := some 0x41 } := hc
  have hexec := (exec_bldR hp poly (some w)).trans (buildRequest_legal hc' (legalWidth_of_legal hw))
  refine ⟨_, reflectedTable w (poly &&& mask w), hexec, rfl, rfl, rfl, rfl, rfl, rfl, rfl, fun c => ?_⟩
  rw [tblRead_reflectedTable_reflect8, tblRead_directTable_of_lt (and_mask_lt poly w), entry]

/-- Settles O33: WIDTH is validated before any write but CMD's (R131). -/
theorem buildWithIllegalWidthIsRejected : Obligations.BuildWithIllegalWidthIsRejected := by
  unfold Obligations.BuildWithIllegalWidthIsRejected
  intro s poly v hp hv
  have hw := legalWidth_of_illegal hv
  exact ⟨(exec_bldD hp poly v).trans (buildRequest_illegal hw), (exec_bldR hp poly v).trans (buildRequest_illegal hw)⟩

/-- A build writes CFG.W, CFG.P, TBL, the builder's state, the cache, the response and PHASE, and no other field. -/
theorem buildRequest_next {reflected : Bool} {poly : Nat} {v : WidthPort} {s t : State}
    (h : buildRequest reflected poly v s = .next t) :
    ∃ w p tab bld cache status value, CacheGrew s cache ∧
      t = { s with
        cfgW := w, cfgP := p, tbl := tab, builder := bld, cache := cache, rspStatus := status
        rspValue := value, phase := .done } := by
  unfold buildRequest at h
  split at h
  · cases h
    exact ⟨_, _, _, _, _, _, _, CacheGrew.refl s, rfl⟩
  · obtain ⟨tab, cache, hgrows, huncached, h⟩ := construct_next h
    cases h
    exact ⟨_, _, _, _, _, _, _, ⟨hgrows, huncached⟩, rfl⟩

/-- Settles O34: CMD aside, either build writes only what `buildRequest_next` lists. -/
theorem buildFrame : Obligations.BuildFrame := by
  unfold Obligations.BuildFrame
  intro s t poly v h
  obtain ⟨cmd, reflected, h⟩ :
      ∃ cmd reflected, buildRequest reflected poly v { s with cmd := some cmd } = .next t := by
    rcases h with h | h
    · exact ⟨0x40, false, (accept_next h).2⟩
    · exact ⟨0x41, true, (accept_next h).2⟩
  obtain ⟨_, _, _, _, _, _, _, ⟨hgrows, huncached⟩, rfl⟩ := buildRequest_next h
  exact ⟨rfl, rfl, rfl, rfl, rfl, rfl, rfl, rfl, rfl, rfl, rfl, rfl, rfl, hgrows, huncached⟩

/-! ### The steps of the chain-closure method -/

/-- What every pass of the inner loop keeps holds of the chain when it has ended. -/
theorem runChain_keeps {w p : Nat} {I : Vector SlotStatus 256 → Chain → Prop}
    (hpass : ∀ slot ch, I slot ch → ch.k < ch.chainEnd → I (chainStep w p slot ch).1 (chainStep w p slot ch).2)
    (fuel : Nat) : ∀ {slot ch}, I slot ch → I (runChain w p fuel (slot, ch)).1 (runChain w p fuel (slot, ch)).2 := by
  induction fuel with
  | zero => exact fun h => h
  | succ fuel ih =>
    intro slot ch h
    unfold runChain
    split
    · exact ih (hpass slot ch h (by assumption))
    · exact h

theorem chainStep_k (w p : Nat) (slot : Vector SlotStatus 256) (ch : Chain) :
    (chainStep w p slot ch).2.k = ch.k + 1 := by
  unfold chainStep extendChain
  split <;> rfl

@[simp] theorem seeded_chainEnd (w : Nat) (c : Byte) : (Chain.seeded w c).chainEnd = 8 := rfl

@[simp] theorem shifted_cr (w p : Nat) (ch : Chain) : (ch.shifted w p).cr = step1 w p ch.cr := rfl

/-- A chain makes as many steps as it counts (R143). -/
theorem stepsFrom_of_unresolved {w p : Nat} {b : Builder} {c : Byte} (h : slotAt b.slot c = .unresolved) :
    b.stepsFrom w p c = (runChain w p chainFuel (setSlot b.slot c .inProgress, Chain.seeded w c)).2.k := by
  simp only [Builder.stepsFrom, Builder.resolveFrom, h, Builder.openChain, Builder.runOpen]

theorem stepsFrom_of_settled {w p : Nat} {b : Builder} {c : Byte} (h : slotAt b.slot c ≠ .unresolved) :
    b.stepsFrom w p c = 0 := by
  unfold Builder.stepsFrom
  split
  · exact absurd (by assumption) h
  · rfl

theorem keeps_setSlot {slot : Vector SlotStatus 256} {c : Byte} {v : SlotStatus} (h : v ≠ .unresolved) :
    Keeps slot (setSlot slot c v) := by
  intro d hd
  rw [slotAt_setSlot]
  split
  · exact h
  · exact hd

/-- Marking a slot takes it out of the Unresolved ones. -/
theorem unresolvedCount_mark_lt {slot : Vector SlotStatus 256} {c : Byte} (h : slotAt slot c = .unresolved) :
    unresolvedCount (setSlot slot c .inProgress) < unresolvedCount slot :=
  unresolvedCount_lt (keeps_setSlot SlotStatus.noConfusion) h (by rw [slotAt_setSlot, if_pos rfl]; nofun)

/-- A chain that, extended for every slot still Unresolved, would end at step `budget` or before. -/
def ChainWithin (w p r0 budget : Nat) (slot : Vector SlotStatus 256) (ch : Chain) : Prop :=
  ChainOk w p r0 slot ch ∧ 8 * unresolvedCount slot + ch.chainEnd ≤ budget

theorem chainStep_within {w p r0 budget : Nat} {slot : Vector SlotStatus 256} {ch : Chain} (hw : 8 ≤ w)
    (hp : p < 2 ^ w) (hr : r0 < 2 ^ w) (h : ChainWithin w p r0 budget slot ch) (hlt : ch.k < ch.chainEnd) :
    ChainWithin w p r0 budget (chainStep w p slot ch).1 (chainStep w p slot ch).2 := by
  obtain ⟨hok, hle⟩ := h
  obtain ⟨hok', -, hnearer⟩ := chainStep_spec hw hp hr hok hlt
  have hk := chainStep_k w p slot ch
  have hpast := hok'.notPast
  exact ⟨hok', by omega⟩

/-- A chain takes at most 8 steps for each slot it takes out of the Unresolved ones (R143). -/
theorem stepsFrom_le {w p : Nat} (hw : 8 ≤ w) (hp : p < 2 ^ w) {b : Builder} (hs : SlotsSettled w p b.slot)
    (c : Byte) :
    b.stepsFrom w p c + 8 * unresolvedCount (b.resolveFrom w p c).slot ≤ 8 * unresolvedCount b.slot := by
  by_cases hc : slotAt b.slot c = .unresolved
  · have hmark := unresolvedCount_mark_lt hc
    have hstart : ChainWithin w p (c.toNat <<< (w - 8)) (8 * unresolvedCount b.slot) (setSlot b.slot c .inProgress)
        (Chain.seeded w c) := ⟨seeded_ok hw hs c, by rw [seeded_chainEnd]; omega⟩
    obtain ⟨hok, hle⟩ := runChain_keeps (fun _ _ h => chainStep_within hw hp (seed_lt hw c) h) chainFuel hstart
    have hpast := hok.notPast
    rw [stepsFrom_of_unresolved hc, resolveFrom_slot hc]
    omega
  · rw [stepsFrom_of_settled hc, resolveFrom_of_settled hc, Nat.zero_add]

/-! ### The polynomial 0 -/

theorem step1_zero (w r : Nat) : step1 w 0 r = (r <<< 1) % 2 ^ w := by
  rw [step1_eq, ite_self, Nat.xor_zero, and_mask]

/-- With the polynomial 0 nothing is fed back: the register is only shifted out. -/
theorem step1_zero_iterate {w r : Nat} (hr : r < 2 ^ w) (k : Nat) : (step1 w 0)^[k] r = (r <<< k) % 2 ^ w := by
  induction k with
  | zero => exact (Nat.mod_eq_of_lt hr).symm
  | succ k ih =>
    rw [Function.iterate_succ_apply', ih, step1_zero, Nat.shiftLeft_eq, Nat.mod_mul_mod, ← Nat.shiftLeft_eq,
      ← Nat.shiftLeft_add]

theorem entry_polynomial_zero {w : Nat} (hw : 8 ≤ w) (c : Byte) : entry w 0 c = 0 := by
  have hexp : w - 8 + 8 = w := by omega
  rw [entry, step1_zero_iterate (seed_lt hw c), ← Nat.shiftLeft_add, hexp, Nat.shiftLeft_eq, Nat.mul_mod_left]

theorem extendChain_of_ne {w : Nat} {slot : Vector SlotStatus 256} {ch : Chain}
    (h : ch.k = ch.chainEnd → slotAt slot (top8 w ch.cr) ≠ .unresolved) : extendChain w slot ch = (slot, ch) :=
  if_neg fun ⟨hend, hun⟩ => h hend hun

/-- In its first eight steps a chain resolves no slot but the one of its seed. -/
theorem slotAt_resolveOldest_of_ne {w p r0 : Nat} {slot : Vector SlotStatus 256} {ch : Chain} {d : Byte}
    (h : ChainOk w p r0 slot ch) (hk : ch.k < 8) (hd : d ≠ top8 w r0) :
    slotAt (resolveOldest w slot (ch.shifted w p)) d = slotAt slot d := by
  have hsnap : (ch.shifted w p).snap[8]? = ch.snap[7]? := by simp [Chain.shifted]
  rw [resolveOldest, hsnap]
  by_cases h7 : ch.k = 7
  · have hseed := h.snap 7 (by decide) h7.ge
    rw [h7] at hseed
    rw [hseed]
    rcases slotAt_resolveSnapshot w slot (ch.shifted w p).cr r0 d with hstays | ⟨hown, -⟩
    · exact hstays
    · exact absurd hown hd
  · have hlen := h.len
    rw [List.getElem?_eq_none (by omega)]

/-- A chain from `c` that has not been extended and has changed no slot of `slot₀` but its own. -/
def ChainAlone (w : Nat) (c : Byte) (slot₀ slot : Vector SlotStatus 256) (ch : Chain) : Prop :=
  ChainOk w 0 (c.toNat <<< (w - 8)) slot ch ∧ ch.chainEnd = 8 ∧ ∀ d, d ≠ c → slotAt slot d = slotAt slot₀ d

/-- With the polynomial 0 the register is 0 after eight steps, and the slot of 0 is settled: the chain ends. -/
theorem chainStep_alone {w : Nat} {c : Byte} {slot₀ slot : Vector SlotStatus 256} {ch : Chain} (hw : 8 ≤ w)
    (hc : c ≠ 0) (h0 : slotAt slot₀ 0 ≠ .unresolved) (h : ChainAlone w c slot₀ slot ch) (hlt : ch.k < ch.chainEnd) :
    ChainAlone w c slot₀ (chainStep w 0 slot ch).1 (chainStep w 0 slot ch).2 := by
  obtain ⟨hok, hend, hothers⟩ := h
  have hkept : ∀ d, d ≠ c → slotAt (resolveOldest w slot (ch.shifted w 0)) d = slotAt slot₀ d := by
    intro d hd
    rw [slotAt_resolveOldest_of_ne hok (hend ▸ hlt) (by rwa [top8_seed hw]), hothers d hd]
  have hnotExtended : chainStep w 0 slot ch = (resolveOldest w slot (ch.shifted w 0), ch.shifted w 0) := by
    refine extendChain_of_ne fun hk => ?_
    have h7 : ch.k = 7 := Nat.succ.inj (hk.trans hend)
    have hcr : (ch.shifted w 0).cr = entry w 0 c := by
      have hcr := hok.cr
      rw [h7] at hcr
      rw [shifted_cr, hcr, entry, ← Function.iterate_succ_apply' (step1 w 0) 7]
    have htop : top8 w 0 = 0 := by simpa using top8_seed hw 0
    rw [hcr, entry_polynomial_zero hw, htop, hkept 0 hc.symm]
    exact h0
  obtain ⟨hok', -, -⟩ := chainStep_spec hw (Nat.two_pow_pos w) (seed_lt hw c) hok hlt
  rw [hnotExtended] at hok' ⊢
  exact ⟨hok', hend, hkept⟩

theorem unresolvedCount_le_succ {slot slot' : Vector SlotStatus 256} {c : Byte}
    (h : ∀ d, d ≠ c → slotAt slot' d = slotAt slot d) : unresolvedCount slot ≤ unresolvedCount slot' + 1 := by
  refine le_trans (Finset.card_le_card fun d hd => ?_) (Finset.card_insert_le c.toFin _)
  simp only [Finset.mem_insert, Finset.mem_filter, Finset.mem_univ, true_and] at hd ⊢
  by_cases hdc : d = c.toFin
  · exact .inl hdc
  · exact .inr ((h _ fun e => hdc (e ▸ rfl)).trans hd)

/-- With the polynomial 0 each chain takes 8 steps and resolves one slot (R143). -/
theorem le_stepsFrom_zero {w : Nat} (hw : 8 ≤ w) {b : Builder} (hs : SlotsSettled w 0 b.slot) (c : Byte) :
    8 * unresolvedCount b.slot ≤ b.stepsFrom w 0 c + 8 * unresolvedCount (b.resolveFrom w 0 c).slot := by
  by_cases hc : slotAt b.slot c = .unresolved
  · have ⟨_, _, h0⟩ := hs
    have hne : c ≠ 0 := fun e => h0 (e ▸ hc)
    have hstart : ChainAlone w c b.slot (setSlot b.slot c .inProgress) (Chain.seeded w c) :=
      ⟨seeded_ok hw hs c, rfl, fun d hd => by rw [slotAt_setSlot, if_neg hd]⟩
    obtain ⟨-, hend, hothers⟩ := runChain_keeps (fun _ _ h => chainStep_alone hw hne h0 h) chainFuel hstart
    have hfuel : 8 * unresolvedCount (setSlot b.slot c .inProgress) + 8 ≤ chainFuel := by
      have := unresolvedCount_seeded hs hc
      simp only [chainFuel]
      omega
    obtain ⟨-, -, hran⟩ := runChain_spec hw (Nat.two_pow_pos w) (seed_lt hw c) chainFuel (seeded_ok hw hs c) hfuel
    rw [hend] at hran
    have hone := unresolvedCount_le_succ hothers
    rw [stepsFrom_of_unresolved hc, resolveFrom_slot hc]
    omega
  · rw [stepsFrom_of_settled hc, resolveFrom_of_settled hc, Nat.zero_add]

/-! ### The steps of a whole table -/

/-- One pass of the outer loop, with the steps counted as `chainStepCount` counts them. -/
def countSteps (w p : Nat) (bn : Builder × Nat) (c : Byte) : Builder × Nat :=
  (bn.1.resolveFrom w p c, bn.2 + bn.1.stepsFrom w p c)

theorem chainStepCount_eq (w p : Nat) :
    chainStepCount w p = (controlBytes.foldl (countSteps w p) (Builder.start, 0)).2 := rfl

/-- Counting the steps changes nothing about the builder. -/
theorem foldl_countSteps_fst (w p : Nat) :
    (controlBytes.foldl (countSteps w p) (Builder.start, 0)).1 = Builder.start.run w p :=
  (List.foldl_hom Prod.fst fun _ _ => rfl).symm

/-- The steps made and 8 for every slot still Unresolved: at most 2040, and exactly so for the polynomial 0. -/
structure StepsCounted (w p : Nat) (bn : Builder × Nat) : Prop where
  settled : SlotsSettled w p bn.1.slot
  atMost : bn.2 + 8 * unresolvedCount bn.1.slot ≤ 2040
  atLeast : p = 0 → 2040 ≤ bn.2 + 8 * unresolvedCount bn.1.slot

/-- Every slot but slot 0 is Unresolved before the first chain (R141). -/
theorem unresolvedCount_start : unresolvedCount Builder.start.slot = 255 := by
  have hslots : ∀ c : Fin 256, slotAt Builder.start.slot (BitVec.ofFin c) = .unresolved ↔ c ≠ 0 := by
    intro c
    have hzero : (BitVec.ofFin c : Byte) = 0 ↔ c = 0 := ⟨congrArg BitVec.toFin, fun e => e ▸ rfl⟩
    rw [slotAt_start, ite_eq_right_iff, hzero]
    exact ⟨fun h hc => SlotStatus.noConfusion (h hc), fun hc h => absurd h hc⟩
  simp only [unresolvedCount, hslots, Finset.filter_ne', Finset.card_erase_of_mem (Finset.mem_univ _),
    Finset.card_univ, Fintype.card_fin]

theorem StepsCounted.start {w p : Nat} (hw : 8 ≤ w) : StepsCounted w p (Builder.start, 0) :=
  ⟨start_settled hw, by rw [unresolvedCount_start], fun _ => by rw [unresolvedCount_start]⟩

theorem StepsCounted.pass {w p : Nat} {bn : Builder × Nat} (hw : 8 ≤ w) (hp : p < 2 ^ w)
    (h : StepsCounted w p bn) (c : Byte) : StepsCounted w p (countSteps w p bn c) := by
  obtain ⟨hs, hmost, hleast⟩ := h
  refine ⟨(resolveFrom_spec hw hp hs c).1, ?_, fun hzero => ?_⟩
  · have hle := stepsFrom_le hw hp hs c
    simp only [countSteps]
    omega
  · subst hzero
    have hge := le_stepsFrom_zero hw hs c
    have hcounted := hleast rfl
    simp only [countSteps]
    omega

theorem stepsCounted_run {w p : Nat} (hw : 8 ≤ w) (hp : p < 2 ^ w) :
    StepsCounted w p (controlBytes.foldl (countSteps w p) (Builder.start, 0)) :=
  List.foldlRecOn _ _ (StepsCounted.start hw) fun _ h c _ => h.pass hw hp c

theorem unresolvedCount_run {w p : Nat} (hw : 8 ≤ w) (hp : p < 2 ^ w) :
    unresolvedCount (Builder.start.run w p).slot = 0 := by
  simp [unresolvedCount, run_resolves hw hp]

/-- Settles O30: no slot is left Unresolved when the outer loop has ended, so the count is the steps made. -/
theorem chainClosureStepBound : Obligations.ChainClosureStepBound := by
  unfold Obligations.ChainClosureStepBound
  refine ⟨fun w p hw _ hp => ?_, fun w hw _ => ?_⟩
  · exact (Nat.le_add_right _ _).trans (stepsCounted_run hw hp).atMost
  · obtain ⟨-, hmost, hleast⟩ := stepsCounted_run hw (Nat.two_pow_pos w)
    have hge := hleast rfl
    rw [foldl_countSteps_fst, unresolvedCount_run hw (Nat.two_pow_pos w), ← chainStepCount_eq] at hmost hge
    omega

end Sys2Proof.Machine

/-! ## The CRC engine: bit steps, byte steps and table steps -/

namespace Sys2Proof.Machine

/-! ### Eight steps of any register -/

theorem shiftLeft_mod_and_mask (w k r : Nat) : ((r % 2 ^ w) <<< k) &&& mask w = (r <<< k) &&& mask w := by
  rw [and_mask, and_mask, Nat.shiftLeft_eq, Nat.shiftLeft_eq, Nat.mod_mul_mod]

/-- What is aligned with the top `k` bits of the register leaves it in `k` shifts. -/
theorem shiftLeft_shiftLeft_and_mask {w k : Nat} (hk : k ≤ w) (v : Nat) : (v <<< (w - k) <<< k) &&& mask w = 0 := by
  rw [← Nat.shiftLeft_add, Nat.sub_add_cancel hk, and_mask, Nat.shiftLeft_eq, Nat.mul_mod_left]

/-- Below a shifted register there is nothing a value could clash with. -/
theorem shiftLeft_or_of_lt {k v : Nat} (hv : v < 2 ^ k) (r : Nat) : (r <<< k) ||| v = (r <<< k) ^^^ v := by
  refine Nat.eq_of_testBit_eq fun i => ?_
  rw [Nat.testBit_or, Nat.testBit_xor, Nat.testBit_shiftLeft]
  by_cases hi : i < k
  · simp [Nat.not_le.mpr hi]
  · have hv' : v.testBit i = false :=
      Nat.testBit_lt_two_pow (Nat.lt_of_lt_of_le hv (Nat.pow_le_pow_right (by decide) (Nat.not_lt.mp hi)))
    simp [hv']

/-- A step reads only the low `w` bits of the register. -/
theorem step1_mod {w : Nat} (hw : 1 ≤ w) (p r : Nat) : step1 w p (r % 2 ^ w) = step1 w p r := by
  have hlt : w - 1 < w := by omega
  rw [step1_eq, step1_eq, shiftLeft_mod_and_mask, Nat.testBit_mod_two_pow, decide_eq_true hlt, Bool.true_and]

theorem top8_mod {w : Nat} (hw : 8 ≤ w) (r : Nat) : top8 w (r % 2 ^ w) = top8 w r := by
  refine BitVec.eq_of_toNat_eq (Nat.eq_of_testBit_eq fun i => ?_)
  rw [testBit_top8 hw, testBit_top8 hw, Nat.testBit_mod_two_pow]
  by_cases hi : i < 8
  · have hlt : w - 8 + i < w := by omega
    simp [hlt]
  · simp [hi]

/-- Eight steps are a byte step of the direct table, also for a register with bits above the low `w` (R142). -/
theorem step1_iterate_eight_eq_tblRead {w p : Nat} (hw : 8 ≤ w) (hp : p < 2 ^ w) (r : Nat) :
    (step1 w p)^[8] r = ((r <<< 8) &&& mask w) ^^^ tblRead (directTable w p) (top8 w r) := by
  have hlow : r % 2 ^ w < 2 ^ w := Nat.mod_lt _ (Nat.two_pow_pos w)
  rw [Function.iterate_succ_apply, ← step1_mod (by omega), ← Function.iterate_succ_apply,
    step1_iterate_eight hw hlow, shiftLeft_mod_and_mask, top8_mod hw, tblRead_directTable_of_lt hp]

/-! ### The byte steps of Table and OptimizedTable -/

/-- A byte aligned with the top of the register is XORed into its top byte. -/
theorem top8_xor_shiftLeft {w : Nat} (hw : 8 ≤ w) (r : Nat) (b : Byte) :
    top8 w (r ^^^ b.toNat <<< (w - 8)) = top8 w r ^^^ b := by
  refine BitVec.eq_of_toNat_eq (Nat.eq_of_testBit_eq fun i => ?_)
  rw [BitVec.toNat_xor, Nat.testBit_xor, testBit_top8 hw, testBit_top8 hw, Nat.testBit_xor, Nat.testBit_shiftLeft]
  by_cases hi : i < 8
  · simp [hi]
  · have hb : b.toNat.testBit i = false := b.getLsbD_of_ge i (Nat.not_lt.mp hi)
    simp [hi, hb]

/-- OptimizedTable XORs its byte into the top of the register and takes eight steps (R186, R202). -/
theorem optimizedStep_eq {w p : Nat} (hw : 8 ≤ w) (hp : p < 2 ^ w) (r : Nat) (b : Byte) :
    optimizedStep w (directTable w p) r b = (step1 w p)^[8] (r ^^^ b.toNat <<< (w - 8)) := by
  rw [step1_iterate_eight_eq_tblRead hw hp, top8_xor_shiftLeft hw, Nat.shiftLeft_xor_distrib,
    Nat.and_xor_distrib_right, shiftLeft_shiftLeft_and_mask hw, Nat.xor_zero, optimizedStep]

/-- Eight steps, with a byte shifted in from below. -/
def shiftInByte (w p r : Nat) (a : Byte) : Nat := (step1 w p)^[8] r ^^^ a.toNat

/-- Table takes eight steps and shifts its byte in from below (R181, R202). -/
theorem tableStep_eq {w p : Nat} (hw : 8 ≤ w) (hp : p < 2 ^ w) (r : Nat) (a : Byte) :
    tableStep w (directTable w p) r a = shiftInByte w p r a := by
  have ha : a.toNat < 2 ^ w := Nat.lt_of_lt_of_le a.isLt (Nat.pow_le_pow_right (by decide) hw)
  rw [tableStep, shiftInByte, step1_iterate_eight_eq_tblRead hw hp, shiftLeft_or_of_lt a.isLt,
    Nat.and_xor_distrib_right, and_mask_of_lt ha, Nat.xor_right_comm]

/-! ### The bits of a byte, one step each -/

/-- The low `n + 1` bits are bit `n` above the low `n` bits. -/
theorem mod_two_pow_succ_eq_xor (v n : Nat) : v % 2 ^ (n + 1) = bitAt v n <<< n ^^^ v % 2 ^ n := by
  refine Nat.eq_of_testBit_eq fun i => ?_
  rw [Nat.testBit_xor, Nat.testBit_mod_two_pow, Nat.testBit_mod_two_pow, Nat.testBit_shiftLeft, bitAt_eq,
    Nat.testBit_bool_toNat]
  rcases Nat.lt_trichotomy i n with hi | rfl | hi
  · have hsucc : i < n + 1 := by omega
    simp [hi, hsucc, Nat.not_le.mpr hi]
  · simp
  · have hsucc : ¬ i < n + 1 := by omega
    have hsub : i - n ≠ 0 := by omega
    simp [hi.not_gt, hsucc, hsub]

theorem bitAt_zero_eq_mod (v : Nat) : bitAt v 0 = v % 2 := by
  rw [bitAt, Nat.shiftRight_zero, Nat.and_one_is_mod]

theorem bitAt_lt_two (v i : Nat) : bitAt v i < 2 := by
  rw [bitAt_eq]
  exact Bool.toNat_lt _

/-- The augmented bit step is a step with the bit shifted in from below (R171). -/
theorem bitstep_eq_xor {w bit : Nat} (hw : 1 ≤ w) (hbit : bit < 2) (p r : Nat) :
    bitstep w p r bit = step1 w p r ^^^ bit := by
  have hfits : bit < 2 ^ w := Nat.lt_of_lt_of_le hbit (Nat.le_self_pow (by omega) 2)
  rw [bitstep_eq, step1_eq, shiftLeft_or_of_lt hbit, Nat.and_xor_distrib_right, and_mask_of_lt hfits,
    Nat.xor_right_comm]

/-- Bits `n` to 0 of a byte, shifted in by BitSerial (R171, R172). -/
theorem foldl_bitstep_bitsFrom {w n : Nat} (hn : n < w) (p : Nat) (a : Byte) (r : Nat) :
    (bitsFrom a n).foldl (bitstep w p) r = (step1 w p)^[n + 1] r ^^^ a.toNat % 2 ^ (n + 1) := by
  induction n generalizing r with
  | zero =>
    rw [bitsFrom_zero, List.foldl_cons, List.foldl_nil, bitstep_eq_xor hn (bitAt_lt_two _ _), bitAt_zero_eq_mod]
    rfl
  | succ n ih =>
    have hbit : bitAt a.toNat (n + 1) < 2 ^ (w - (n + 1)) :=
      Nat.lt_of_lt_of_le (bitAt_lt_two _ _) (Nat.le_self_pow (by omega) 2)
    rw [bitsFrom_succ, List.foldl_cons, bitstep_eq_xor (by omega) (bitAt_lt_two _ _), ih (by omega),
      step1_iterate_xor, step1_iterate_of_lt _ hn.le hbit, Nat.xor_assoc, ← mod_two_pow_succ_eq_xor,
      ← Function.iterate_succ_apply]

/-- BitSerial's eight steps of a byte shift it in from below (R172, R202). -/
theorem foldl_bitstep_bitsDown {w : Nat} (hw : 8 ≤ w) (p r : Nat) (a : Byte) :
    (bitsDown a).foldl (bitstep w p) r = shiftInByte w p r a := by
  rw [← bitsFrom_seven, foldl_bitstep_bitsFrom hw, Nat.mod_eq_of_lt a.isLt, shiftInByte]

/-- A bit of the reference function is XORed into the top of the register before its step (R164). -/
theorem crcRefBit_eq {w : Nat} (hw : 1 ≤ w) (p r v i : Nat) :
    crcRefBit w p r (bitAt v i) = step1 w p (r ^^^ bitAt v i <<< (w - 1)) := by
  have hmsb : msb w r ^^^ bitAt v i = 1 ↔ msb w (r ^^^ bitAt v i <<< (w - 1)) = 1 := by
    rw [msb_eq_one, Nat.testBit_xor, Nat.testBit_shiftLeft, msb, bitAt_eq, bitAt_eq, Nat.testBit_bool_toNat]
    cases r.testBit (w - 1) <;> cases v.testBit i <;> simp
  simp only [crcRefBit, step1, hmsb, Nat.shiftLeft_xor_distrib, Nat.and_xor_distrib_right,
    shiftLeft_shiftLeft_and_mask hw, Nat.xor_zero]

/-- Bits `n` to 0 of a byte, taken by the reference function (R164). -/
theorem foldl_crcRefBit_bitsFrom {w n : Nat} (hn : n < w) (p : Nat) (a : Byte) (r : Nat) :
    (bitsFrom a n).foldl (crcRefBit w p) r =
      (step1 w p)^[n + 1] (r ^^^ (a.toNat % 2 ^ (n + 1)) <<< (w - (n + 1))) := by
  induction n generalizing r with
  | zero =>
    rw [bitsFrom_zero, List.foldl_cons, List.foldl_nil, crcRefBit_eq hn, bitAt_zero_eq_mod]
    rfl
  | succ n ih =>
    have hexp : n + 1 + (w - (n + 1 + 1)) = w - 1 := by omega
    have hshift : w - (n + 1) = w - (n + 1 + 1) + 1 := by omega
    have hlow : (a.toNat % 2 ^ (n + 1)) <<< (w - (n + 1 + 1)) < 2 ^ (w - 1) := by
      rw [← hexp, Nat.shiftLeft_eq, Nat.pow_add 2 (n + 1)]
      exact Nat.mul_lt_mul_of_pos_right (Nat.mod_lt _ (Nat.two_pow_pos _)) (Nat.two_pow_pos _)
    rw [bitsFrom_succ, List.foldl_cons, crcRefBit_eq (by omega), ih (by omega), hshift, Nat.shiftLeft_add,
      ← step1_of_lt (p := p) (by omega) hlow, ← step1_xor, ← Function.iterate_succ_apply, Nat.xor_assoc, ← hexp,
      Nat.shiftLeft_add, ← Nat.shiftLeft_xor_distrib, ← mod_two_pow_succ_eq_xor]

/-- The reference function XORs its byte into the top of the register and takes eight steps (R164, R202). -/
theorem crcRefByte_eq {w : Nat} (hw : 8 ≤ w) (p r : Nat) (b : Byte) :
    crcRefByte w p r b = (step1 w p)^[8] (r ^^^ b.toNat <<< (w - 8)) := by
  rw [crcRefByte, ← bitsFrom_seven, foldl_crcRefBit_bitsFrom hw, Nat.mod_eq_of_lt b.isLt]

/-- Settles O51: both sides of each equation are eight steps, with the byte shifted in from below or XORed into the
top byte. -/
theorem byteStepsEqualBitSteps : Obligations.ByteStepsEqualBitSteps := by
  unfold Obligations.ByteStepsEqualBitSteps
  intro w p r a hw _ hp _
  exact ⟨(foldl_bitstep_bitsDown hw p r a).trans (tableStep_eq hw hp r a).symm,
    (crcRefByte_eq hw p r a).trans (optimizedStep_eq hw hp r a).symm⟩

end Sys2Proof.Machine

/-! ## The CRC engine: one value for the four commands -/

namespace Sys2Proof.Machine

/-! ### The augmented stream -/

theorem be_cons (b : Byte) (l : List Byte) : be (b :: l) = b.toNat <<< (8 * l.length) ^^^ be l := by
  have hor := shiftLeft_or_of_lt (be_lt l) b.toNat
  rw [← hor, ← Nat.shiftLeft_add_eq_or_of_lt (be_lt l), Nat.shiftLeft_eq, be]

theorem be_concat (l : List Byte) (a : Byte) : be (l ++ [a]) = be l <<< 8 ^^^ a.toNat := by
  induction l with
  | nil => simp [be]
  | cons b l ih =>
    have hlen : 8 * (l ++ [a]).length = 8 * l.length + 8 := by simp [Nat.mul_succ]
    rw [List.cons_append, be_cons, ih, be_cons, hlen, Nat.shiftLeft_add, Nat.shiftLeft_xor_distrib, Nat.xor_assoc]

theorem zeros_succ (k : Nat) : zeros (k + 1) = 0 :: zeros k := rfl

@[simp] theorem be_zeros (k : Nat) : be (zeros k) = 0 := by
  induction k with
  | zero => rfl
  | succ k ih =>
    rw [zeros_succ, be_cons, ih]
    simp

/-- Bytes no longer than the register are shifted in without loss, below what was there. -/
theorem foldl_shiftInByte {w : Nat} (p r : Nat) {l : List Byte} (hl : 8 * l.length ≤ w) :
    l.foldl (shiftInByte w p) r = (step1 w p)^[8 * l.length] r ^^^ be l := by
  induction l using List.reverseRecOn with
  | nil => simp [be]
  | append_singleton l a ih =>
    rw [List.length_append, List.length_singleton, Nat.mul_add] at hl ⊢
    have hlow : be l < 2 ^ (w - 8) :=
      Nat.lt_of_lt_of_le (be_lt l) (Nat.pow_le_pow_right (by decide) (by omega))
    rw [List.foldl_concat, ih (by omega), shiftInByte, step1_iterate_xor, step1_iterate_of_lt 8 (by omega) hlow,
      be_concat, Nat.add_comm, Function.iterate_add_apply, Nat.xor_assoc]

/-- One byte of the stream on: the byte that was next is now XORed into the top, as the reference function does. -/
theorem shiftInByte_preloaded {w : Nat} (p r : Nat) (b a : Byte) {l : List Byte} (hl : 8 * (l.length + 1) = w) :
    shiftInByte w p (r ^^^ be (b :: l)) a = crcRefByte w p r b ^^^ be (l ++ [a]) := by
  have hw : 8 ≤ w := by omega
  have hlen : 8 * l.length = w - 8 := by omega
  have hlow : be l < 2 ^ (w - 8) := hlen ▸ be_lt l
  rw [shiftInByte, be_cons, hlen, ← Nat.xor_assoc, step1_iterate_xor, ← crcRefByte_eq hw,
    step1_iterate_of_lt 8 hw hlow, Nat.xor_assoc, ← be_concat]

/-- Shifting the padded stream in behind the preload is the reference function on the stream (R164, R166, R170). -/
theorem foldl_shiftInByte_preloaded {w k : Nat} (p : Nat) (hk : 1 ≤ k) (hw : 8 * k = w) (l : List Byte) (r : Nat) :
    ((l ++ zeros k).drop k).foldl (shiftInByte w p) (r ^^^ be ((l ++ zeros k).take k)) =
      l.foldl (crcRefByte w p) r := by
  induction l generalizing r with
  | nil =>
    have hlen : (zeros k).length ≤ k := List.length_replicate.le
    rw [List.nil_append, List.drop_of_length_le hlen, List.take_of_length_le hlen, be_zeros, Nat.xor_zero]
    rfl
  | cons b l ih =>
    obtain ⟨k, rfl⟩ : ∃ n, k = n + 1 := ⟨k - 1, by omega⟩
    have hlt : k < (l ++ zeros (k + 1)).length := by simp [zeros]; omega
    have htake : ((l ++ zeros (k + 1)).take k).length = k := List.length_take_of_le hlt.le
    rw [List.cons_append, List.drop_succ_cons, List.take_succ_cons, List.drop_eq_getElem_cons hlt, List.foldl_cons,
      shiftInByte_preloaded p r b _ (by rw [htake, hw]), List.take_concat_get' _ _ hlt, ih, List.foldl_cons]

/-! ### The summaries are the reference function -/

/-- Shifting in the augmented stream behind the preload is the reference function on the effective message (R164,
R166, R170). -/
theorem foldl_shiftInByte_augmented {w : Nat} (hw : 8 ≤ w) (hmod : w % 8 = 0) (p r : Nat) (refin : Bool)
    (m : List Byte) :
    ((augmented refin w m).drop (w / 8)).foldl (shiftInByte w p) (r ^^^ preload refin w m) =
      (effective refin m).foldl (crcRefByte w p) r :=
  foldl_shiftInByte_preloaded p (by omega) (by omega) _ _

/-- Bit by bit, BitSerial shifts its bytes in (R172, R202). -/
theorem foldl_bitstep_flatMap {w : Nat} (hw : 8 ≤ w) (p r : Nat) (l : List Byte) :
    (l.flatMap bitsDown).foldl (bitstep w p) r = l.foldl (shiftInByte w p) r := by
  have hbyte : (fun r a => (bitsDown a).foldl (bitstep w p) r) = shiftInByte w p :=
    funext₂ (foldl_bitstep_bitsDown hw p)
  rw [List.foldl_flatMap, hbyte]

theorem crcBitSerial_eq_crcRef {c : CrcCfg} (hw : 8 ≤ c.w) (hmod : c.w % 8 = 0) (m : List Byte) :
    crcBitSerial c m = crcRef c m := by
  rw [crcBitSerial, foldl_bitstep_flatMap hw, foldl_shiftInByte_augmented hw hmod, crcRef]

theorem crcTable_eq_crcRef {c : CrcCfg} (hw : 8 ≤ c.w) (hmod : c.w % 8 = 0) (hp : c.p < 2 ^ c.w) (m : List Byte) :
    crcTable c m = crcRef c m := by
  have hbyte : tableStep c.w (directTable c.w c.p) = shiftInByte c.w c.p := funext₂ (tableStep_eq hw hp)
  rw [crcTable, hbyte, foldl_shiftInByte_augmented hw hmod, crcRef]

theorem crcOptimized_eq_crcRef {c : CrcCfg} (hw : 8 ≤ c.w) (hp : c.p < 2 ^ c.w) (m : List Byte) :
    crcOptimized c m = crcRef c m := by
  have hbyte : optimizedStep c.w (directTable c.w c.p) = crcRefByte c.w c.p :=
    funext₂ fun r b => (optimizedStep_eq hw hp r b).trans (crcRefByte_eq hw c.p r b).symm
  rw [crcOptimized, optimizedRegister, hbyte, crcRef]

theorem low8_xor_toNat (r : Nat) (b : Byte) : low8 (r ^^^ b.toNat) = low8 r ^^^ b := by
  refine BitVec.eq_of_toNat_eq ?_
  rw [BitVec.toNat_xor, low8_toNat, low8_toNat, Nat.xor_mod_two_pow, Nat.mod_eq_of_lt b.isLt]

theorem reflect8_xor (a b : Byte) : reflect8 (a ^^^ b) = reflect8 a ^^^ reflect8 b := by
  refine BitVec.eq_of_toNat_eq (Nat.eq_of_testBit_eq fun i => ?_)
  rw [BitVec.toNat_xor, Nat.testBit_xor, testBit_reflect8, testBit_reflect8, testBit_reflect8, BitVec.toNat_xor,
    Nat.testBit_xor, Bool.and_xor_distrib_left]

/-- ReflectedTable reads the table at the low byte of the register, XORed with its byte (R192). -/
theorem reflectedStep_eq (t : Table) (r : Nat) (c : Byte) :
    reflectedStep t r c = (r >>> 8) ^^^ tblRead t (low8 (r ^^^ c.toNat)) := rfl

/-- On the reflected register and byte ReflectedTable does what OptimizedTable does, reflected (R117, R191). -/
theorem reflectedStep_reflectW {w : Nat} (hw : 8 ≤ w) (p r : Nat) (b : Byte) :
    reflectedStep (reflectedTable w p) (reflectW r w) (reflect8 b) =
      reflectW (optimizedStep w (directTable w p) r b) w := by
  have hindex : low8 (reflectW r w ^^^ (reflect8 b).toNat) = reflect8 (top8 w r ^^^ b) := by
    rw [low8_xor_toNat, reflect8_xor, top8_eq_reflect8_low8 hw, reflect8_reflect8]
  rw [reflectedStep_eq, hindex, tblRead_reflectedTable_reflect8, ← reflectW_shiftLeft_mask, ← reflectW_xor,
    optimizedStep]

theorem reflectedRegister_eq {c : CrcCfg} (hw : 8 ≤ c.w) (l : List Byte) :
    reflectedRegister c l = reflectW (optimizedRegister c l) c.w := by
  rw [reflectedRegister, List.foldl_map, optimizedRegister]
  exact List.foldl_hom (reflectW · c.w) fun r b => reflectedStep_reflectW hw c.p r b

/-- Settles O52: the byte steps correspond, and so do their folds. -/
theorem reflectedRegisterMirrorsOptimized : Obligations.ReflectedRegisterMirrorsOptimized := by
  unfold Obligations.ReflectedRegisterMirrorsOptimized
  exact fun _ l hw _ _ _ => reflectedRegister_eq hw l

theorem optimizedRegister_lt {c : CrcCfg} (hp : c.p < 2 ^ c.w) (hi : c.i < 2 ^ c.w) (l : List Byte) :
    optimizedRegister c l < 2 ^ c.w :=
  List.foldlRecOn (motive := (· < 2 ^ c.w)) l _ hi fun _ _ _ _ => optimizedStep_lt hp _ _

/-- Reflecting the register first turns the sense of FINAL's own reflection around (R200, R201). -/
theorem finish_not_reflectW {w r : Nat} (flip : Bool) (x : Nat) (hr : r < 2 ^ w) :
    finish (!flip) w x (reflectW r w) = finish flip w x r := by
  cases flip with
  | false => simp [finish, reflectW_reflectW, and_mask_of_lt hr]
  | true => simp [finish]

theorem crcReflected_eq_crcRef {c : CrcCfg} (hw : 8 ≤ c.w) (hp : c.p < 2 ^ c.w) (hi : c.i < 2 ^ c.w)
    (m : List Byte) : crcReflected c m = crcRef c m := by
  rw [crcReflected, reflectedRegister_eq hw, finish_not_reflectW _ _ (optimizedRegister_lt hp hi _), ← crcOptimized,
    crcOptimized_eq_crcRef hw hp]

theorem crcValue_eq_crcRef {c : CrcCfg} (hw : 8 ≤ c.w) (hmod : c.w % 8 = 0) (hp : c.p < 2 ^ c.w)
    (hi : c.i < 2 ^ c.w) (algo : Algo) (m : List Byte) : crcValue algo c m = crcRef c m := by
  cases algo with
  | bitSerial => exact crcBitSerial_eq_crcRef hw hmod m
  | table => exact crcTable_eq_crcRef hw hmod hp m
  | optimizedTable => exact crcOptimized_eq_crcRef hw hp m
  | reflectedTable => exact crcReflected_eq_crcRef hw hp hi m

/-- Settles O53: BitSerial and Table shift the augmented stream in behind the preload, OptimizedTable takes the
reference function's byte steps, and ReflectedTable mirrors them. -/
theorem summaryFunctionsAreTheReference : Obligations.SummaryFunctionsAreTheReference := by
  unfold Obligations.SummaryFunctionsAreTheReference
  exact fun _ m hw hmod hp hi algo => crcValue_eq_crcRef hw hmod hp hi algo m

/-! ### The forbidden reading of `init` -/

/-- Shifting in all of the augmented stream takes `w` steps of `init` before the preload is in place (R203). -/
theorem crcLiteralReading_eq_crcRef {c : CrcCfg} (hw : 8 ≤ c.w) (hmod : c.w % 8 = 0) (m : List Byte) :
    crcLiteralReading c m = crcRef { c with i := (step1 c.w c.p)^[c.w] c.i } m := by
  have hlen : 8 * ((augmented c.refin c.w m).take (c.w / 8)).length = c.w := by
    rw [List.length_take, augmented_length]
    omega
  have hfirst := foldl_shiftInByte (w := c.w) c.p c.i hlen.le
  rw [hlen] at hfirst
  rw [crcLiteralReading, foldl_bitstep_flatMap hw, ← List.take_append_drop (c.w / 8) (augmented c.refin c.w m),
    List.foldl_append, hfirst, ← preload, foldl_shiftInByte_augmented hw hmod, crcRef]

/-- Settles O57: the identity, and the two values of CRC-16/CCITT (L1-3, L2-8). -/
theorem literalReadingMultipliesInit : Obligations.LiteralReadingMultipliesInit := by
  unfold Obligations.LiteralReadingMultipliesInit
  exact ⟨fun _ m hw hmod _ _ => crcLiteralReading_eq_crcRef hw hmod m, by decide +kernel, by decide +kernel⟩

/-! ### Affinity -/

theorem crcRefByte_xor {w : Nat} (hw : 8 ≤ w) (p r₁ r₂ : Nat) (b₁ b₂ : Byte) :
    crcRefByte w p (r₁ ^^^ r₂) (b₁ ^^^ b₂) = crcRefByte w p r₁ b₁ ^^^ crcRefByte w p r₂ b₂ := by
  rw [crcRefByte_eq hw, crcRefByte_eq hw, crcRefByte_eq hw, ← step1_iterate_xor, BitVec.toNat_xor,
    Nat.shiftLeft_xor_distrib]
  congr 1
  ac_rfl

theorem effectiveByte_xor (refin : Bool) (a b : Byte) :
    effectiveByte refin (a ^^^ b) = effectiveByte refin a ^^^ effectiveByte refin b := by
  cases refin with
  | false => rfl
  | true => exact reflect8_xor a b

theorem effective_zipWith_xor (refin : Bool) (m₁ m₂ : List Byte) :
    effective refin (List.zipWith (· ^^^ ·) m₁ m₂) =
      List.zipWith (· ^^^ ·) (effective refin m₁) (effective refin m₂) := by
  simp only [effective, List.map_zipWith, List.zipWith_map, effectiveByte_xor]

/-- The register is linear in its start and the bytes together. -/
theorem foldl_crcRefByte_xor {w : Nat} (hw : 8 ≤ w) (p : Nat) {l₁ l₂ : List Byte} (hl : l₁.length = l₂.length)
    (r₁ r₂ : Nat) :
    (List.zipWith (· ^^^ ·) l₁ l₂).foldl (crcRefByte w p) (r₁ ^^^ r₂) =
      l₁.foldl (crcRefByte w p) r₁ ^^^ l₂.foldl (crcRefByte w p) r₂ := by
  induction l₁ generalizing l₂ r₁ r₂ with
  | nil =>
    cases l₂ with
    | nil => rfl
    | cons => cases hl
  | cons b₁ l₁ ih =>
    cases l₂ with
    | nil => cases hl
    | cons b₂ l₂ =>
      rw [List.zipWith_cons_cons, List.foldl_cons, crcRefByte_xor hw, ih (Nat.succ.inj hl), List.foldl_cons,
        List.foldl_cons]

theorem zipWith_xor_zeros (m : List Byte) : List.zipWith (· ^^^ ·) m (zeros m.length) = m := by
  induction m with
  | nil => rfl
  | cons b m ih =>
    rw [List.length_cons, zeros_succ, List.zipWith_cons_cons, ih]
    exact congrArg (· :: m) BitVec.xor_zero

/-- XOROUT and the reflection of three values are those of their XOR. -/
theorem finish_xor (flip : Bool) (w x a b d : Nat) :
    finish flip w x (a ^^^ b ^^^ d) = finish flip w x a ^^^ finish flip w x b ^^^ finish flip w x d := by
  have hx : ∀ a b d, a ^^^ b ^^^ d ^^^ x = (a ^^^ x) ^^^ (b ^^^ x) ^^^ (d ^^^ x) := by
    intro a b d
    calc a ^^^ b ^^^ d ^^^ x = a ^^^ b ^^^ d ^^^ (x ^^^ x ^^^ x) := by rw [Nat.xor_self, Nat.zero_xor]
      _ = (a ^^^ x) ^^^ (b ^^^ x) ^^^ (d ^^^ x) := by ac_rfl
  cases flip with
  | false => exact hx a b d
  | true =>
    simp only [finish, if_true, reflectW_xor]
    exact hx _ _ _

/-- The register of `m₁ ^ m₂` is that of `m₁ ^ m₂ ^ 0` from `i ^ i ^ i`, and so the XOR of three registers (R205). -/
theorem foldl_crcRefByte_affine {w : Nat} (hw : 8 ≤ w) (p i : Nat) (refin : Bool) {m₁ m₂ : List Byte}
    (hlen : m₁.length = m₂.length) :
    (effective refin (List.zipWith (· ^^^ ·) m₁ m₂)).foldl (crcRefByte w p) i =
      (effective refin m₁).foldl (crcRefByte w p) i ^^^ (effective refin m₂).foldl (crcRefByte w p) i ^^^
        (effective refin (zeros m₁.length)).foldl (crcRefByte w p) i := by
  have hxor : (List.zipWith (· ^^^ ·) m₁ m₂).length = m₁.length := by simp [hlen]
  have hbytes : effective refin (List.zipWith (· ^^^ ·) m₁ m₂) =
      List.zipWith (· ^^^ ·) (List.zipWith (· ^^^ ·) (effective refin m₁) (effective refin m₂))
        (effective refin (zeros m₁.length)) := by
    rw [← effective_zipWith_xor, ← effective_zipWith_xor, ← hxor, zipWith_xor_zeros]
  have hstart : i = i ^^^ i ^^^ i := by rw [Nat.xor_self, Nat.zero_xor]
  conv_lhs => rw [hbytes, hstart]
  rw [foldl_crcRefByte_xor hw _ (by simp [effective, zeros, hlen]),
    foldl_crcRefByte_xor hw _ (by simp [effective, hlen])]

/-- Settles O56: the register is affine in the message, and FINAL is affine in the register. -/
theorem valueIsAffineInTheMessage : Obligations.ValueIsAffineInTheMessage := by
  unfold Obligations.ValueIsAffineInTheMessage
  intro c m₁ m₂ hw _ hlen
  rw [crcRef, foldl_crcRefByte_affine hw _ _ _ hlen, finish_xor, crcRef, crcRef, crcRef]

end Sys2Proof.Machine

/-! ## The CRC engine: the steps of a request and its runs -/

namespace Sys2Proof.Machine

/-! ### IDLE and DONE -/

/-- Settles O4: the accept step of `step_of_issues`. -/
theorem stepRunsTheDecodedInstruction : Obligations.StepRunsTheDecodedInstruction := by
  unfold Obligations.StepRunsTheDecodedInstruction
  exact fun _ _ _ _ hi hc hd => step_of_issues hi hc hd

/-- A presented request that decodes is the instruction the next step runs. -/
theorem step_present {r : Request} {i : Instr} (hd : decode r = .ok i) (s : State) :
    step (present r s) = exec i { s with phase := .idle } := by
  have hi : Issues (present r s) r s.script := ⟨rfl, rfl⟩
  have hc : ResetClear (present r s) := nofun
  exact step_of_issues hi hc hd

/-- A word from which the decoder reads an instruction is a request. -/
theorem decodeTableWord_some {nbits w : Nat} {i : Instr} (h : decodeTableWord nbits w = some i) :
    ∃ r, tableRequest nbits w = some r ∧ decode r = .ok i := by
  unfold decodeTableWord at h
  split at h
  · cases h
  · split at h
    · cases h
      exact ⟨_, by assumption, by assumption⟩
    · cases h

/-- Settles O6: the word's request is presented, and the next step runs it. -/
theorem presentedTableWordRunsNext : Obligations.PresentedTableWordRunsNext := by
  unfold Obligations.PresentedTableWordRunsNext
  intro s w i h
  obtain ⟨r, hr, hd⟩ := decodeTableWord_some h
  have hpresent : s.withFetchWord 8 w = present r s := by
    simp only [State.withFetchWord, presentWord, hr]
  rw [hpresent, step_present hd]

/-- A status with its value, or an error without one, is a response to deliver (R36, R86). -/
theorem answers_of_registers {s : State} {ρ : Response} (hp : s.phase = .done)
    (hstatus : s.rspStatus = some ρ.status)
    (hvalue : ρ.status = .ok → ∃ v, ρ.value = some v ∧ s.rspValue = some v)
    (hnone : ρ.status ≠ .ok → ρ.value = none) : Answers s ρ := by
  obtain ⟨status, value⟩ := ρ
  cases status with
  | ok =>
    obtain ⟨v, rfl, hv⟩ := hvalue rfl
    exact ⟨hp, .inl ⟨v, rfl, hstatus, hv⟩⟩
  | error e =>
    obtain rfl : value = none := hnone nofun
    exact ⟨hp, .inr ⟨e, rfl, hstatus⟩⟩

/-- Settles O10: the host takes the response and the engine retires. -/
theorem deliveryReturnsToIdle : Obligations.DeliveryReturnsToIdle := by
  unfold Obligations.DeliveryReturnsToIdle
  intro s r hp hc hstatus hvalue hnone
  have hr : Answers (dropPin s) r := answers_of_registers hp hstatus hvalue hnone
  have hstep := (step_of_clear hc).trans ((advance_done hr.1).trans hr.deliver_eq)
  exact ⟨_, hstep, rfl, dead_retire _, rfl, rfl, rfl, rfl, rfl⟩

/-! ### The accept step -/

/-- What the accept step latches, written out (R25, R88, R162). -/
theorem latchCrc_eq_crcAccepted (algo : Algo) (w : Nat) (o : CrcOperands) (m : List Byte) (s : State) :
    latchCrc (crcWord algo) w o m { s with cmd := some (crcWord algo) } =
      crcAccepted (crcWord algo) algo o w m s := by
  rw [latchCrc, and_mask, and_mask, and_mask]
  cases algo <;> rfl

theorem exec_crcInstr_eq_crcAccepted {s : State} {o : CrcOperands} {w : Nat} {m : List Byte}
    (hp : s.phase = .idle) (hlegal : LegalWidth s.config w) (hw : o.width = some (w : Int))
    (hm : o.msg = byteElems m) (algo : Algo) :
    exec (crcInstr algo o) s = .next (crcAccepted (crcWord algo) algo o w m s) := by
  have hwidth : legalWidth s.config o.width = some w := hw ▸ legalWidth_of_legal hlegal
  have hbytes : validBytes o.msg = some m := hm ▸ validBytes_byteElems m
  rw [exec_crcInstr, acceptCrc_latches hp hwidth hbytes, latchCrc_eq_crcAccepted]

/-- Settles O36: one accept step for the four algorithms. -/
theorem crcRequestsAreLatched : Obligations.CrcRequestsAreLatched := by
  unfold Obligations.CrcRequestsAreLatched
  intro s o w m hp hlegal hw hm
  have h := exec_crcInstr_eq_crcAccepted hp hlegal hw hm
  exact ⟨h .bitSerial, h .table, h .optimizedTable, h .reflectedTable⟩

/-! ### INIT -/

/-- `PHASE <- (go on) ? CONSUME : FINAL`, with the test the other way round. -/
theorem nextPhase_bne (k n : Nat) : nextPhase (k != n) = if k = n then .final else .consume := by
  by_cases h : k = n <;> simp [nextPhase, h]

/-- Where INIT leaves the request: there is nothing to consume exactly when the message is empty (R170, R180, R185,
R190). -/
theorem atByte_firstIdx_of_msg (l : Latched) (r : Nat) (s : State) :
    atByte l (firstIdx l) r s =
      { s with
        reg := some r, idx := some (firstIdx l), phase := if l.msg = [] then .final else .consume } := by
  have hempty : firstIdx l = (stream l).length ↔ l.msg = [] := by
    rw [length_stream, ← List.length_eq_zero_iff]
    omega
  simp only [atByte, nextPhase_bne, hempty]

/-- INIT of BitSerial asks nothing of the configuration (R170). -/
theorem stepInit_bitSerial {l : Latched} {s : State} (h : Holds s l) (ha : l.algo = .bitSerial) :
    stepInit s = .next (atByte l (firstIdx l) (startReg l) (prepared l s)) := by
  rw [atByte_firstIdx]
  obtain ⟨-, hw, -, hi, -, hrefin, -, halgo, hmsg⟩ := h
  obtain ⟨cfg, algo, m⟩ := l
  cases ha
  simp only [stepInit, initBitSerial, prepared, hw, hi, hrefin, halgo, hmsg, readReg_some]
  rfl

theorem step_of_init {s : State} (hc : ResetClear s) (hp : s.phase = .init) : step s = stepInit (dropPin s) := by
  rw [step_of_clear hc, advance_init (s := dropPin s) hp]

/-- Settles O39: INIT's state at the first unit of the stream, written out for BitSerial. -/
theorem initBitSerialPreloads : Obligations.InitBitSerialPreloads := by
  unfold Obligations.InitBitSerialPreloads
  intro s l hp hc hl ha
  rw [step_of_init hc hp, stepInit_bitSerial (s := dropPin s) hl ha, atByte_firstIdx_of_msg]
  obtain ⟨cfg, algo, m⟩ := l
  cases ha
  rfl

/-- Settles O40: INIT's state at the first unit of the stream holds what each algorithm prepares. -/
theorem initTableVariantsBuildAndLoad : Obligations.InitTableVariantsBuildAndLoad := by
  unfold Obligations.InitTableVariantsBuildAndLoad
  intro s l hp hc hl ⟨hallowed, hpoly, _, _⟩ hcache ha
  obtain ⟨hw, -, -⟩ := (widthAllowed_iff _ _).mp hallowed
  have hstep := (step_of_init hc hp).trans (stepInit_eq (s := dropPin s) hl hw hpoly fun _ => hcache)
  rw [atByte_firstIdx_of_msg] at hstep
  refine ⟨_, hstep, rfl, ?_⟩
  obtain ⟨cfg, algo, m⟩ := l
  cases algo with
  | bitSerial => exact absurd rfl ha
  | table => exact ⟨rfl, fun _ => ⟨rfl, rfl, rfl⟩, nofun, nofun⟩
  | optimizedTable => exact ⟨rfl, nofun, fun _ => ⟨rfl, rfl, rfl⟩, nofun⟩
  | reflectedTable => exact ⟨rfl, nofun, nofun, fun _ => ⟨rfl, rfl, rfl⟩⟩

/-! ### CONSUME -/

theorem step_of_consume {s : State} (hc : ResetClear s) (hp : s.phase = .consume) :
    step s = stepConsume (dropPin s) := by
  rw [step_of_clear hc, advance_consume (s := dropPin s) hp]

theorem readStream_of_getElem? {l : List Byte} {k : Nat} {a : Byte} (h : l[k]? = some a)
    (f : Byte → StepOutcome) : readStream l k f = f a := by
  simp only [readStream, msgRead, h]

/-- A unit of the stream is the last one exactly when its bit 0 is taken and no unit is left (R172). -/
theorem nextPhase_bitSerial {k n : Nat} (hk : k < n) (b : Fin 8) :
    nextPhase ((if b = 0 then k + 1 else k) != n) = if b = 0 ∧ k + 1 = n then .final else .consume := by
  rw [nextPhase_bne]
  by_cases hb : b = 0
  · simp [hb]
  · simp [hb, hk.ne]

/-- Settles O41: the reads of CONSUME of BitSerial find their registers and the byte at IDX. -/
theorem consumeBitSerialTakesOneBit : Obligations.ConsumeBitSerialTakesOneBit := by
  unfold Obligations.ConsumeBitSerialTakesOneBit
  intro s l k a r b hp hc ⟨_, hw, hpoly, _, _, hrefin, _, halgo, hmsg⟩ ha hk hbyte hb hr
  have hlt : k < (augmented l.cfg.refin l.cfg.w l.msg).length := (List.getElem?_eq_some_iff.mp hbyte).1
  rw [ha] at halgo
  rw [step_of_consume hc hp]
  simp only [stepConsume, consumeBitSerial, dropPin, halgo, hw, hpoly, hrefin, hmsg, hk, hb, hr, readReg_some,
    readStream_of_getElem? hbyte, nextPhase_bitSerial hlt]

/-- Settles O42: the reads of CONSUME of Table find their registers and the byte at IDX. -/
theorem consumeTableTakesOneByte : Obligations.ConsumeTableTakesOneByte := by
  unfold Obligations.ConsumeTableTakesOneByte
  intro s l k a r tab hp hc ⟨_, hw, _, _, _, hrefin, _, halgo, hmsg⟩ ha hk hbyte hr ht
  rw [ha] at halgo
  rw [step_of_consume hc hp]
  simp only [stepConsume, consumeTable, dropPin, halgo, hw, hrefin, hmsg, hk, hr, ht, readReg_some,
    readStream_of_getElem? hbyte, nextPhase_bne, tableStep]

/-- Settles O43: the reads of CONSUME of OptimizedTable find their registers and the message byte at IDX. -/
theorem consumeOptimizedTakesOneByte : Obligations.ConsumeOptimizedTakesOneByte := by
  unfold Obligations.ConsumeOptimizedTakesOneByte
  intro s l k b r tab hp hc ⟨_, hw, _, _, _, hrefin, _, halgo, hmsg⟩ ha hk hbyte hr ht
  rw [ha] at halgo
  rw [step_of_consume hc hp]
  simp only [stepConsume, consumeOptimized, dropPin, halgo, hw, hrefin, hmsg, hk, hr, ht, readReg_some,
    readStream_of_getElem? hbyte, nextPhase_bne, optimizedStep, effectiveByte]

/-- Settles O44: the reads of CONSUME of ReflectedTable find their registers and the message byte at IDX. -/
theorem consumeReflectedTakesOneByte : Obligations.ConsumeReflectedTakesOneByte := by
  unfold Obligations.ConsumeReflectedTakesOneByte
  intro s l k b r tab hp hc ⟨_, _, _, _, _, hrefin, _, halgo, hmsg⟩ ha hk hbyte hr ht
  rw [ha] at halgo
  rw [step_of_consume hc hp]
  simp only [stepConsume, consumeReflected, dropPin, halgo, hrefin, hmsg, hk, hr, ht, readReg_some,
    readStream_of_getElem? hbyte, nextPhase_bne, reflectedStep_eq]

/-! ### FINAL -/

/-- ReflectedTable reflects when REFOUT = 0, the others when it is 1 (R200, R201). -/
theorem finalFlip_eq_true_iff (algo : Algo) (refout : Bool) :
    finalFlip algo refout = true ↔ refout = (algo != .reflectedTable) := by
  cases algo <;> cases refout <;> decide

/-- Settles O45: the reads of FINAL find their registers. -/
theorem finalFormsTheResponse : Obligations.FinalFormsTheResponse := by
  unfold Obligations.FinalFormsTheResponse
  intro s l r hp hc ⟨_, hw, _, _, hx, _, hrefout, halgo, _⟩ hr
  rw [step_of_clear hc, advance_final (s := dropPin s) hp]
  simp only [stepFinal, dropPin, halgo, hw, hrefout, hx, hr, readReg_some, finish, finalFlip_eq_true_iff, respond]

/-! ### Whole requests -/

/-- A legal CRC request runs to the value of its one-function summary; BitSerial uses no table, and so no cache
(R173, R182, R187, R193, R249). -/
theorem runsTo_crcValue {algo : Algo} {s : State} {r : Request} {rest : List Request} {o : CrcOperands} {w : Nat}
    {m : List Byte} (hi : Issues s r rest) (hd : decode r = .ok (crcInstr algo o))
    (hcache : algo ≠ .bitSerial → CacheOk s) (hlegal : LegalWidth s.config w) (hw : o.width = some (w : Int))
    (hm : o.msg = byteElems m) (hq : Quiet (stepsPerByte algo * m.length + 3) s) :
    RunsTo (stepsPerByte algo * m.length + 3) s rest (crcValue algo (crcCfgOf o w) m) :=
  runsTo_of_latched hi hd hcache (hw ▸ legalWidth_of_legal hlegal) (hm ▸ validBytes_byteElems m) hq

/-- Settles O47: BitSerial takes eight steps a byte. -/
theorem crcBitSerialRunsToItsValue : Obligations.CrcBitSerialRunsToItsValue := by
  unfold Obligations.CrcBitSerialRunsToItsValue
  intro s r rest o w m hi hd hlegal hw hm hq
  exact runsTo_crcValue (algo := .bitSerial) hi hd (absurd rfl) hlegal hw hm hq

/-- A table variant takes one step a byte (R249). -/
theorem runsTo_crcValue_table {algo : Algo} (ha : algo ≠ .bitSerial) {s : State} {r : Request}
    {rest : List Request} {o : CrcOperands} {w : Nat} {m : List Byte} (hi : Issues s r rest)
    (hd : decode r = .ok (crcInstr algo o)) (hcache : CacheOk s) (hlegal : LegalWidth s.config w)
    (hw : o.width = some (w : Int)) (hm : o.msg = byteElems m) (hq : Quiet (m.length + 3) s) :
    RunsTo (m.length + 3) s rest (crcValue algo (crcCfgOf o w) m) := by
  have hsteps : stepsPerByte algo * m.length = m.length := by rw [stepsPerByte_of_ne ha, Nat.one_mul]
  rw [← hsteps] at hq ⊢
  exact runsTo_crcValue hi hd (fun _ => hcache) hlegal hw hm hq

/-- Settles O48: the run of a table variant, for Table. -/
theorem crcTableRunsToItsValue : Obligations.CrcTableRunsToItsValue := by
  unfold Obligations.CrcTableRunsToItsValue
  intro s r rest o w m hi hd hcache hlegal hw hm hq
  exact runsTo_crcValue_table (algo := .table) nofun hi hd hcache hlegal hw hm hq

/-- Settles O49: the run of a table variant, for OptimizedTable. -/
theorem crcOptimizedRunsToItsValue : Obligations.CrcOptimizedRunsToItsValue := by
  unfold Obligations.CrcOptimizedRunsToItsValue
  intro s r rest o w m hi hd hcache hlegal hw hm hq
  exact runsTo_crcValue_table (algo := .optimizedTable) nofun hi hd hcache hlegal hw hm hq

/-- Settles O50: the run of a table variant, for ReflectedTable. -/
theorem crcReflectedRunsToItsValue : Obligations.CrcReflectedRunsToItsValue := by
  unfold Obligations.CrcReflectedRunsToItsValue
  intro s r rest o w m hi hd hcache hlegal hw hm hq
  exact runsTo_crcValue_table (algo := .reflectedTable) nofun hi hd hcache hlegal hw hm hq

/-- The summary of a latched request is the reference function on the masked operands (R164, R202). -/
theorem crcValue_crcCfgOf {k : Config} {w : Nat} (hlegal : LegalWidth k w) (algo : Algo) (o : CrcOperands)
    (m : List Byte) : crcValue algo (crcCfgOf o w) m = crcRef (crcCfgOf o w) m := by
  obtain ⟨h8, hmod, -⟩ := hlegal
  exact crcValue_eq_crcRef (c := crcCfgOf o w) h8 hmod (and_mask_lt _ _) (and_mask_lt _ _) algo m

/-- Settles O54: each command runs to its summary, which is the reference function. -/
theorem fourVariantsAgree : Obligations.FourVariantsAgree := by
  unfold Obligations.FourVariantsAgree
  intro algo s r rest o w m hi hd hcache hlegal hw hm hq
  have hn : stepsPerByte algo * m.length + 3 ≤ 8 * m.length + 3 :=
    Nat.add_le_add_right (Nat.mul_le_mul_right _ (stepsPerByte_le algo)) 3
  rw [← crcValue_crcCfgOf hlegal algo]
  exact ⟨_, hn, runsTo_crcValue hi hd (fun _ => hcache) hlegal hw hm (hq.mono hn)⟩

/-- The value fits in the register, by way of the register of OptimizedTable (R168, R204). -/
theorem crcRef_lt {c : CrcCfg} (hw : 8 ≤ c.w) (hp : c.p < 2 ^ c.w) (hi : c.i < 2 ^ c.w) (hx : c.x < 2 ^ c.w)
    (m : List Byte) : crcRef c m < 2 ^ c.w := by
  rw [← crcOptimized_eq_crcRef hw hp]
  exact finish_lt _ hx (optimizedRegister_lt hp hi _)

/-- Settles O55: with no byte to take the reference function is FINAL on `init`, and its values fit in the register. -/
theorem emptyMessageValueAndBound : Obligations.EmptyMessageValueAndBound := by
  unfold Obligations.EmptyMessageValueAndBound
  refine ⟨fun algo s r rest o w hi hd hcache hlegal hw hm hq => ?_, fun algo c m hw hmod hp hi hx => ?_⟩
  · have hrun := runsTo_crcValue (m := []) hi hd (fun _ => hcache) hlegal hw hm hq
    rwa [crcValue_crcCfgOf hlegal] at hrun
  · rw [crcValue_eq_crcRef hw hmod hp hi]
    exact crcRef_lt hw hp hi hx m

end Sys2Proof.Machine

/-! ## Exceptions and waiting -/

namespace Sys2Proof.Machine

/-! ### A CRC request that is rejected -/

/-- WIDTH is tested before MSG is looked at (R212, R215). -/
theorem acceptCrc_of_illegalWidth {s : State} {o : CrcOperands} (hp : s.phase = .idle)
    (hw : legalWidth s.config o.width = none) (cmd : CmdWord) :
    acceptCrc cmd o s = .next (crcRejected cmd .invalidWidth s) := by
  simp only [acceptCrc, accept_idle hp, hw, raise, crcRejected]

/-- After a legal WIDTH, a message that is not all bytes takes the error exit (R213). -/
theorem acceptCrc_of_invalidMessage {s : State} {o : CrcOperands} {w : Nat} (hp : s.phase = .idle)
    (hw : legalWidth s.config o.width = some w) (hm : validBytes o.msg = none) (cmd : CmdWord) :
    acceptCrc cmd o s = .next (crcRejected cmd .invalidMessageElement s) := by
  simp only [acceptCrc, accept_idle hp, hw, hm, raise, crcRejected]

/-- Settles O37: every kind of illegal width fails `legal_width`, the first test of the one accept step. -/
theorem crcIllegalWidthIsRejectedFirst : Obligations.CrcIllegalWidthIsRejectedFirst := by
  unfold Obligations.CrcIllegalWidthIsRejectedFirst
  intro s o hp hillegal
  have h (algo : Algo) :=
    (exec_crcInstr algo o s).trans (acceptCrc_of_illegalWidth hp (legalWidth_of_illegal hillegal) (crcWord algo))
  exact ⟨h .bitSerial, h .table, h .optimizedTable, h .reflectedTable⟩

/-- Settles O38: the width passes the first test, and one invalid element anywhere fails the second. -/
theorem crcInvalidElementIsRejected : Obligations.CrcInvalidElementIsRejected := by
  unfold Obligations.CrcInvalidElementIsRejected
  intro s o w hp hlegal hw hbad
  have hwidth : legalWidth s.config o.width = some w := hw ▸ legalWidth_of_legal hlegal
  have h (algo : Algo) :=
    (exec_crcInstr algo o s).trans
      (acceptCrc_of_invalidMessage hp hwidth (validBytes_of_invalid hbad) (crcWord algo))
  exact ⟨h .bitSerial, h .table, h .optimizedTable, h .reflectedTable⟩

/-! ### Waiting -/

/-- Without a request the instance does nothing (R231, log entry 3). -/
theorem acceptNext_of_no_script {s : State} (h : s.script = []) : acceptNext s = .next s := by
  simp only [acceptNext, h]

/-- Settles O9: the step of IDLE with no request to accept leaves only the reset sample taken. -/
theorem idleInstanceDoesNothing : Obligations.IdleInstanceDoesNothing := by
  unfold Obligations.IdleInstanceDoesNothing
  intro s hp hs hc
  rw [step_of_clear hc, advance_idle (s := dropPin s) hp, acceptNext_of_no_script (s := dropPin s) hs, dropPin]

end Sys2Proof.Machine

/-! ## Reset and hazards -/

namespace Sys2Proof.Machine

/-! ### Reset -/

/-- Asserting reset leaves the registers dead, whatever the phase (R240). -/
theorem dead_assertReset (s : State) : Dead (assertReset s) := dead_retire s

/-- Reset asserted in the reset state changes nothing, so what holds of every state after reset holds of it. -/
theorem assertReset_stateReset : assertReset State.reset = State.reset := rfl

/-- Settles O7: what reset leaves does not depend on the state it met, and the reset state is such a state. -/
theorem resetLeavesNoValue : Obligations.ResetLeavesNoValue := by
  unfold Obligations.ResetLeavesNoValue
  have hleaves (s : State) : (assertReset s).phase = .idle ∧ Dead (assertReset s) ∧
      (assertReset s).builder = none ∧ (assertReset s).cache = [] :=
    ⟨assertReset_phase s, dead_assertReset s, assertReset_builder s, assertReset_cache s⟩
  exact ⟨assertReset_stateReset ▸ hleaves State.reset, fun s hr => ⟨_, step_of_reset hr, hleaves (dropPin s)⟩⟩

/-- Settles O8: a step under reset only takes the sample and asserts reset, in whatever phase the request is. -/
theorem resetAbandonsTheRequest : Obligations.ResetAbandonsTheRequest := by
  unfold Obligations.ResetAbandonsTheRequest
  intro s hr
  refine ⟨_, step_of_reset hr, assertReset_phase _, ?_, ?_, ?_, ?_⟩
  · rw [assertReset_responses, dropPin_responses]
  · rw [assertReset_script, dropPin_script]
  · rw [assertReset_config, dropPin_config]
  · rw [assertReset_resetPin, dropPin_resetPin]

/-- Settles O11: reset enters the invariant from every state, and leaves the reset state as it is. -/
theorem resetStateMeetsInvariant : Obligations.ResetStateMeetsInvariant := by
  unfold Obligations.ResetStateMeetsInvariant
  exact assertReset_stateReset ▸ engineInv_assertReset State.reset

/-! ### A request while busy -/

/-- The CRC accept step is an accept step with the command word it is given (R162). -/
theorem acceptCrc_eq_accept (cmd : CmdWord) (o : CrcOperands) (s : State) :
    ∃ k, acceptCrc cmd o s = accept cmd s k := ⟨_, rfl⟩

/-- Every instruction is an accept step with its own command word (R87, R160). -/
theorem exec_eq_accept (i : Instr) (s : State) : ∃ k, exec i s = accept (encodeWord i) s k := by
  unfold exec
  cases i with
  | rfb | rfw | rfs | bldD | bldR => exact ⟨_, rfl⟩
  | crcBS o => exact acceptCrc_eq_accept 0x80 o s
  | crcTB o => exact acceptCrc_eq_accept 0x81 o s
  | crcOT o => exact acceptCrc_eq_accept 0x82 o s
  | crcRT o => exact acceptCrc_eq_accept 0x83 o s

/-- Settles O19: the accept step that every instruction begins with tests PHASE first. -/
theorem busyInstanceAcceptsNothing : Obligations.BusyInstanceAcceptsNothing := by
  unfold Obligations.BusyInstanceAcceptsNothing
  intro i s hp
  obtain ⟨k, hk⟩ := exec_eq_accept i s
  rw [hk, accept_busy hp]

end Sys2Proof.Machine
